-- ==== Sys2Proof/Word.lean ====
section
/-! DEFINITION. The two bit patterns that cross the block's ports: a byte of a stream and a 64-bit port word. -/

namespace Sys2Proof

/-- One byte of the byte source or sink, and the command byte `CMD` (R6, R40, R60). -/
abbrev Byte := BitVec 8

/-- A 64-bit port word or register: `ARG`, `RSP_VALUE`, `ACC` (R6, R24, R46). -/
abbrev Word := BitVec 64

end Sys2Proof
end

