-- ==== Sys2Proof/Config.lean ====
section
/-! DEFINITION. What the machine's specification fixes once (R6) and the one value it leaves open (R9). -/

namespace Sys2Proof

/-- Payload bits of a varint byte, the parameter `G` of R6. -/
def Config.groupBits : Nat := 7

/-- FREE VALUE (log 10). What a left shift of a `w`-bit pattern by `n` gives when `n` is `w` or more.
R9: "no rule needs the meaning of a shift by W or more". It has no body, so no proof can rest on its value. -/
opaque Config.shiftPastWidth (w : Nat) (a : BitVec w) (n : Nat) : BitVec w

end Sys2Proof
end

