-- ==== Sys2Proof/Syntax.lean ====
section
/-! DEFINITION. A command as the host presents it (R60) and the sixteen operations it can name (R4, R62). -/

namespace Sys2Proof

/-- What the host presents in one `Accept` step (R60): the command byte and the operand. Every pair of
patterns can be presented. Whether the byte is legal is the decoder's matter (R63). -/
structure Command where
  cmd : Byte
  arg : Word
deriving DecidableEq, Repr

/-- The sixteen operations of R4, one constructor per row of the opcode map of R62. An encode or zig-zag
operation carries the whole 64-bit `ARG`, of which its meaning reads bits `W-1..0` (R64). A decode operation
reads no operand and carries none (R64; log 8). -/
inductive Instr where
  | zzenc8 (arg : Word)
  | zzenc16 (arg : Word)
  | zzenc32 (arg : Word)
  | zzenc64 (arg : Word)
  | zzdec8 (arg : Word)
  | zzdec16 (arg : Word)
  | zzdec32 (arg : Word)
  | zzdec64 (arg : Word)
  | vencu32 (arg : Word)
  | vencu64 (arg : Word)
  | vencs32 (arg : Word)
  | vencs64 (arg : Word)
  | vdecu32
  | vdecu64
  | vdecs32
  | vdecs64
deriving DecidableEq, Repr

end Sys2Proof
end

