-- ==== Sys2Proof/Machine/State.lean ====
section
/-! DEFINITION. The machine's state as plain data: the block's registers (R22 to R26), and the environment of R21 as
data that the step reads (log 1). The reasons a step can stop, and the state right after reset (R160). -/

namespace Sys2Proof.Machine

open Sys2Proof

/-- Register `PHASE` (R22). Every 2-bit encoding is used. -/
inductive Phase where
  | idle
  | enc
  | dec
  | resp
deriving DecidableEq, Repr

/-- The four errors of R140. -/
inductive Err where
  | endOfInput
  | overflow
  | ioFailure
  | illegalCommand
deriving DecidableEq, Repr

/-- How an operation ends (R141): OK or one of the four errors. -/
inductive Status where
  | ok
  | err (e : Err)
deriving DecidableEq, Repr

/-- The registers of the block (R22 to R26, R33). -/
structure Block where
  /-- `PHASE` (R22). -/
  phase : Phase
  /-- `OP` (R23). -/
  op : BitVec 4
  /-- `ACC` (R24). -/
  acc : Word
  /-- `CNT` (R25). -/
  cnt : BitVec 4
  /-- `RSP_STATUS` (R26). -/
  rspStatus : BitVec 3
  /-- `RSP_VALUE` (R26). -/
  rspValue : Word
  /-- `RSP_COUNT` (R26). -/
  rspCount : BitVec 4
deriving DecidableEq, Repr

/-- An answer of the byte source (R41). -/
inductive SrcAnswer where
  | byte (b : Byte)
  | endInput
  | ioFail
deriving DecidableEq, Repr

/-- An answer of the byte sink (R42). -/
inductive SnkAnswer where
  | ok
  | ioFail
deriving DecidableEq, Repr

/-- What a `Deliver` step hands to the host (R147). -/
structure Response where
  status : BitVec 3
  value : Word
  count : BitVec 4
deriving DecidableEq, Repr

/-- The five kinds of step of R21, with what the environment contributes to each. -/
inductive Event where
  | accept (c : Command)
  | write (ans : SnkAnswer)
  | read (ans : SrcAnswer)
  | deliver
  | reset
deriving DecidableEq, Repr

/-- The environment as data (log 1): what the host, the source and the sink will do, and what they have received.
A claim about every `Env` is a claim about every `src_oracle` and `snk_oracle` of D26. -/
structure Env where
  /-- The commands the host offers, in order. The first is held on the command port until accepted (R164). -/
  cmds : List Command
  /-- Whether the host takes the responses it is shown (R147, R165). -/
  rspReady : Bool
  /-- The source's answers to the next requests, in order (R41). -/
  src : List SrcAnswer
  /-- The source's answer to every request after those, `none` when it never answers (R44). -/
  srcThen : Option SrcAnswer
  /-- The sink's answers to the next offers, in order (R42). -/
  snk : List SnkAnswer
  /-- The sink's answer to every offer after those, `none` when it never answers (R44). -/
  snkThen : Option SnkAnswer
  /-- The bytes the sink answered Ok to, oldest first (R42). -/
  sink : List Byte
  /-- The responses handed to the host, oldest first (R147). -/
  taken : List Response
  /-- The level of `rst` at the coming steps, low after the list (R160; log 4). -/
  rst : List Bool
deriving DecidableEq, Repr

/-- The whole machine: the block's registers and its environment. -/
structure State where
  blk : Block
  env : Env
deriving DecidableEq, Repr

/-- Why no step is enabled. None of these is an error of the block, whose own errors are responses (R140): each is
the treatment `stuck` of 93_implementation_defined.md, and a stop here is safe (log 2, 3, 9). -/
inductive Fault where
  /-- `step`, in IDLE: the host offers no command. Safe (log 3). -/
  | noCommandOffered
  /-- `step`, in ENC: the sink never answers the offered byte (R44, I6). Safe (log 2). -/
  | sinkNotAnswering
  /-- `step`, in DEC: the source never answers the request (R44, I5). Safe (log 2). -/
  | sourceNotAnswering
  /-- `step`, in RESP: the host does not take the response (R165, I16). Safe (log 2). -/
  | responseNotTaken
  /-- An `Accept` outside IDLE, where `CMD_READY = 0` (R21, R164). `step` never asks for one. Safe (log 9). -/
  | acceptWhileBusy
  /-- A `Write` outside ENC, where `SNK_REQ = 0` (R21). `step` never asks for one. Safe (log 9). -/
  | writeNotRequested
  /-- A `Read` outside DEC, where `SRC_REQ = 0` (R21). `step` never asks for one. Safe (log 9). -/
  | readNotRequested
  /-- A `Deliver` outside RESP, where `RSP_VALID = 0` (R21). `step` never asks for one. Safe (log 9). -/
  | noResponsePending
deriving DecidableEq, Repr

/-- What the model gives no meaning. -/
inductive Refusal where
  /-- `exec`, for an instruction with no meaning yet. Safe. No arm uses it. -/
  | notModelled (mnemonic : String)
  /-- A `Deliver` of RSP_STATUS 5 to 7 or RSP_COUNT 11 to 15, which the block never produces: "a model whose state
  holds one of these values has left the reachable states, and must mark it" (I12). Safe (log 12). -/
  | responseNeverProduced
deriving DecidableEq, Repr

/-- The registers after a `Reset` step (R160). -/
def Block.reset : Block :=
  { phase := .idle, op := 0#4, acc := 0#64, cnt := 0#4, rspStatus := 0#3, rspValue := 0#64, rspCount := 0#4 }

/-- An environment that offers nothing, answers nothing, has received nothing, and would take a response
(DESIGN CHOICE, log 5: the spec gives the environment no start state). -/
def Env.quiet : Env :=
  { cmds := [], rspReady := true, src := [], srcThen := none, snk := [], snkThen := none, sink := [], taken := [],
    rst := [] }

/-- The machine right after reset (R160), in the quiet environment. -/
def State.reset : State := { blk := Block.reset, env := Env.quiet }

end Sys2Proof.Machine
end

