-- ==== Sys2Proof/Machine/Flags.lean ====
section
/-! DEFINITION. The block stores no condition flag (R30). Its flag computations are those of a varint byte on the
wire (R69, R102) and the codes of PHASE and of the status register (R22, R141). -/

namespace Sys2Proof.Machine

open Sys2Proof

/-- The code of register `PHASE` (R22). -/
def Phase.code : Phase → BitVec 2
  | .idle => 0#2
  | .enc => 1#2
  | .dec => 2#2
  | .resp => 3#2

/-- The status codes of R141. -/
def Status.code : Status → BitVec 3
  | .ok => 0#3
  | .err .endOfInput => 1#3
  | .err .overflow => 2#3
  | .err .ioFailure => 3#3
  | .err .illegalCommand => 4#3

/-- The continuation flag `C` of a varint byte, bit 7 (R69). -/
def contFlag (b : Byte) : Bool := b.getLsbD 7

/-- The payload `P` of a varint byte, bits 6..0 (R69). -/
def payload (b : Byte) : BitVec 7 := b.extractLsb' 0 7

/-- What remains of a value after its lowest group is taken, `x >>u 7` (R100). -/
def restOf (x : Word) : Word := x >>> Config.groupBits

/-- The byte the encoder offers for a remaining value (R102): the low group, with the continuation flag set exactly
when something remains above it. -/
def encbyte (x : Word) : Byte :=
  (x.extractLsb' 0 7).setWidth 8 ||| (if restOf x ≠ 0#64 then 0x80#8 else 0x00#8)

end Sys2Proof.Machine
end

