-- ==== Sys2Proof/Decode.lean ====
section
/-! DEFINITION. The fields of a command byte (R60, R61), the decoder (R62, R63) and the encoder written from the
`CMD` column of R62. Decoding is total: the 240 bytes with a reserved bit set are rejected by name. -/

namespace Sys2Proof

/-- Why a command is no instruction. -/
inductive DecodeError where
  /-- `CMD[7:4]` is not 0000 (R63, R66). The machine does not stop on it: its `Accept` step answers IllegalCommand. -/
  | reservedBitsSet (rsv : BitVec 4)
deriving DecidableEq, Repr

/-- Field `RSV`, `CMD[7:4]` (R60). -/
def rsvField (cmd : Byte) : BitVec 4 := cmd.extractLsb' 4 4

/-- The operation code `CMD[3:0]` that register `OP` holds (R23, R60). -/
def opField (cmd : Byte) : BitVec 4 := cmd.extractLsb' 0 4

/-- Field `V` of an operation code: set for a varint operation, clear for a zig-zag one (R60). -/
def isVarint (op : BitVec 4) : Bool := op.getLsbD 3

/-- Field `D` of an operation code: set for decode, clear for encode (R60). -/
def isDecode (op : BitVec 4) : Bool := op.getLsbD 2

/-- Field `S` of a varint operation code: set when the operation is signed (R60). -/
def isSigned (op : BitVec 4) : Bool := op.getLsbD 1

/-- Width of a zig-zag operation, `8 << WW` (R61). -/
def zigzagWidth (op : BitVec 4) : Nat := 8 <<< (op.extractLsb' 0 2).toNat

/-- Width of a varint operation, 32 when `L = 0` and 64 when `L = 1` (R61). -/
def varintWidth (op : BitVec 4) : Nat := if op.getLsbD 0 then 64 else 32

/-- Width of an operation (R61). -/
def opWidth (op : BitVec 4) : Nat := if isVarint op then varintWidth op else zigzagWidth op

/-- The operation an operation code selects, by the column "V D bits1:0" of R62. -/
def decodeOp (op : BitVec 4) (arg : Word) : Instr :=
  match op.getLsbD 3, op.getLsbD 2, op.getLsbD 1, op.getLsbD 0 with
  | false, false, false, false => .zzenc8 arg
  | false, false, false, true => .zzenc16 arg
  | false, false, true, false => .zzenc32 arg
  | false, false, true, true => .zzenc64 arg
  | false, true, false, false => .zzdec8 arg
  | false, true, false, true => .zzdec16 arg
  | false, true, true, false => .zzdec32 arg
  | false, true, true, true => .zzdec64 arg
  | true, false, false, false => .vencu32 arg
  | true, false, false, true => .vencu64 arg
  | true, false, true, false => .vencs32 arg
  | true, false, true, true => .vencs64 arg
  | true, true, false, false => .vdecu32
  | true, true, false, true => .vdecu64
  | true, true, true, false => .vdecs32
  | true, true, true, true => .vdecs64

/-- Decoding a command (R63): illegal when a reserved bit is set, else the operation of R62. -/
def decode (c : Command) : Except DecodeError Instr :=
  if rsvField c.cmd = 0#4 then .ok (decodeOp (opField c.cmd) c.arg)
  else .error (.reservedBitsSet (rsvField c.cmd))

/-- The command byte of an instruction, the `CMD` column of R62. -/
def Instr.cmdByte : Instr → Byte
  | .zzenc8 _ => 0x00#8
  | .zzenc16 _ => 0x01#8
  | .zzenc32 _ => 0x02#8
  | .zzenc64 _ => 0x03#8
  | .zzdec8 _ => 0x04#8
  | .zzdec16 _ => 0x05#8
  | .zzdec32 _ => 0x06#8
  | .zzdec64 _ => 0x07#8
  | .vencu32 _ => 0x08#8
  | .vencu64 _ => 0x09#8
  | .vencs32 _ => 0x0A#8
  | .vencs64 _ => 0x0B#8
  | .vdecu32 => 0x0C#8
  | .vdecu64 => 0x0D#8
  | .vdecs32 => 0x0E#8
  | .vdecs64 => 0x0F#8

/-- The operand an instruction carries. A decode operation reads none (R64). -/
def Instr.operand? : Instr → Option Word
  | .zzenc8 a => some a
  | .zzenc16 a => some a
  | .zzenc32 a => some a
  | .zzenc64 a => some a
  | .zzdec8 a => some a
  | .zzdec16 a => some a
  | .zzdec32 a => some a
  | .zzdec64 a => some a
  | .vencu32 a => some a
  | .vencu64 a => some a
  | .vencs32 a => some a
  | .vencs64 a => some a
  | .vdecu32 => none
  | .vdecu64 => none
  | .vdecs32 => none
  | .vdecs64 => none

/-- The command that presents an instruction. `ARG` of a decode operation is ignored (R64); the encoder drives 0. -/
def encode (i : Instr) : Command := ⟨i.cmdByte, i.operand?.getD 0#64⟩

/-- A command laid out as one number: `CMD` in bits 7..0 and `ARG` in bits 71..8, bits from `nbits` up taken as 0.
The spec lays a command on two parallel ports and gives no such number (log 7). -/
def wordCommand (nbits w : Nat) : Command :=
  ⟨BitVec.ofNat 8 (w % 2 ^ nbits), BitVec.ofNat 64 ((w % 2 ^ nbits) >>> 8)⟩

/-- What the decoder reads from an opcode-table word. -/
def decodeTableWord (nbits w : Nat) : Option Instr :=
  match decode (wordCommand nbits w) with
  | .ok i => some i
  | .error _ => none

end Sys2Proof
end

