-- ==== Sys2Proof/Machine/Operands.lean ====
section
/-! DEFINITION. Reading the operand (R64), placing the result (R65), the left shift of R9 and the group bound of R7. -/

namespace Sys2Proof.Machine

open Sys2Proof

/-- The operand `a = ARG[W-1:0]`. Bits 63..W are ignored, whatever they hold (R64). -/
def operand (w : Nat) (arg : Word) : BitVec w := arg.setWidth w

/-- The result word `zext_64(r)`, never sign-extended (R65). -/
def resultWord {w : Nat} (r : BitVec w) : Word := r.setWidth 64

/-- The left shift of R9. It has a meaning for amounts below the width; past it the value is free (log 10). -/
def shiftLeftW {w : Nat} (a : BitVec w) (n : Nat) : BitVec w :=
  if n < w then a <<< n else Config.shiftPastWidth w a n

/-- `MAX_BYTES(W) = ceil(W / 7)` (R7): 5 for 32 and 10 for 64 (R6). -/
def maxBytes (w : Nat) : Nat := (w + 6) / Config.groupBits

end Sys2Proof.Machine
end

