-- ==== Sys2Proof/Machine/Ops.lean ====
section
/-! DEFINITION. The operations every meaning is written over: ending an operation (R12), raising an error (R143), the
return to IDLE (R147), reset (R160), accepting in IDLE (R63), and taking the environment's next answer. -/

namespace Sys2Proof.Machine

open Sys2Proof

/-- The outcome of a step of this machine. -/
abbrev Outcome := Host.Outcome State Fault Refusal

/-- The state with other registers and the same environment. -/
def State.withBlk (s : State) (b : Block) : State := { s with blk := b }

/-- `respond(status, value, count)` (R12, R26): the three response registers, all together, and PHASE to RESP. -/
def Block.respond (st : Status) (value : Word) (count : BitVec 4) (b : Block) : Block :=
  { b with rspStatus := st.code, rspValue := value, rspCount := count, phase := .resp }

/-- `raise E(count)` (R12, R143), the one way an operation ends in an error: respond with E, value 0 and the count,
and nothing else. ACC, CNT and OP stay as they were. -/
def Block.raise (e : Err) (count : BitVec 4) (b : Block) : Block :=
  b.respond (.err e) 0#64 count

/-- A byte joins the sink, after those already there (R42, R51). -/
def State.pushSink (s : State) (b : Byte) : State :=
  { s with env := { s.env with sink := s.env.sink ++ [b] } }

/-- The response the response port shows. -/
def Block.response (b : Block) : Response := ⟨b.rspStatus, b.rspValue, b.rspCount⟩

/-- Whether a response is one the block can produce: status 0 to 4 and count 0 to 10 (R33, I12). -/
def Response.produced (r : Response) : Bool := decide (r.status.toNat ≤ 4) && decide (r.count.toNat ≤ 10)

/-- The `Deliver` step (R147), the return from an operation and from an error alike: the host receives the response
and PHASE goes to IDLE. Nothing else changes. A response the block never produces is refused (I12, log 12). -/
def deliver (s : State) : Outcome :=
  match s.blk.phase with
  | .idle => .fault .noResponsePending
  | .enc => .fault .noResponsePending
  | .dec => .fault .noResponsePending
  | .resp =>
    if s.blk.response.produced then
      .next { blk := { s.blk with phase := .idle }, env := { s.env with taken := s.env.taken ++ [s.blk.response] } }
    else .refused .responseNeverProduced

/-- The `Reset` step (R160, R161): every register to its reset value, the streams untouched. -/
def resetBlock (s : State) : State := s.withBlk Block.reset

/-- An `Accept` step whose effect on the registers is `f`, possible only while PHASE = IDLE (R21, R63). -/
def acceptStep (f : Block → Block) (s : State) : Outcome :=
  match s.blk.phase with
  | .idle => .next (s.withBlk (f s.blk))
  | .enc => .fault .acceptWhileBusy
  | .dec => .fault .acceptWhileBusy
  | .resp => .fault .acceptWhileBusy

/-- The source's answer to one request, and the environment after it; `none` when it never answers (R41, R44). -/
def Env.nextSrc (v : Env) : Option (SrcAnswer × Env) :=
  match v.src with
  | a :: rest => some (a, { v with src := rest })
  | [] => v.srcThen.map fun a => (a, v)

/-- The sink's answer to one offer, and the environment after it; `none` when it never answers (R42, R44). -/
def Env.nextSnk (v : Env) : Option (SnkAnswer × Env) :=
  match v.snk with
  | a :: rest => some (a, { v with snk := rest })
  | [] => v.snkThen.map fun a => (a, v)

/-- The command on the command port, and the environment after it is accepted (R63, R164). -/
def Env.nextCmd (v : Env) : Option (Command × Env) :=
  match v.cmds with
  | c :: rest => some (c, { v with cmds := rest })
  | [] => none

/-- Whether `rst` is high at the coming step (R160; log 4). -/
def Env.rstHigh (v : Env) : Bool := v.rst.headD false

/-- The environment once the coming step's level of `rst` has passed (log 4). -/
def Env.passRst (v : Env) : Env := { v with rst := v.rst.tail }

/-- The state in which a command is the next thing the block takes: PHASE = IDLE, the command first on the command
port and `rst` low at the coming step (log 6). -/
def State.offerFirst (c : Command) (s : State) : State :=
  { blk := { s.blk with phase := .idle },
    env := { s.env with cmds := c :: s.env.cmds, rst := if s.env.rstHigh then false :: s.env.rst else s.env.rst } }

end Sys2Proof.Machine
end

