-- ==== Sys2Proof/Machine/Zigzag.lean ====
section
/-! DEFINITION. The zig-zag family (40_zigzag.md): the two functions and the eight operations, each finished in its
`Accept` step (R92). -/

namespace Sys2Proof.Machine

open Sys2Proof

/-- Zig-zag encode at width `w`, `(a << 1) ^ (a >>s (w-1))` (R80). -/
def zzEnc (w : Nat) (a : BitVec w) : BitVec w := (a <<< 1) ^^^ a.sshiftRight (w - 1)

/-- Zig-zag decode at width `w`, `(u >>u 1) ^ neg_w(u & 1)` (R81). -/
def zzDec (w : Nat) (u : BitVec w) : BitVec w := (u >>> 1) ^^^ -(u &&& 1#w)

/-- What a zig-zag operation does to the registers (R63, R92): OP takes the code, and the response is OK with the
result and no transfer. ACC and CNT are not written. -/
def zigzagDone (code : BitVec 4) (r : Word) (b : Block) : Block :=
  { b with op := code }.respond .ok r 0#4

/-- ZZENC8 (R83). -/
def execZzenc8 (arg : Word) (s : State) : Outcome :=
  acceptStep (zigzagDone 0x0#4 (resultWord (zzEnc 8 (operand 8 arg)))) s

/-- ZZENC16 (R84). -/
def execZzenc16 (arg : Word) (s : State) : Outcome :=
  acceptStep (zigzagDone 0x1#4 (resultWord (zzEnc 16 (operand 16 arg)))) s

/-- ZZENC32 (R85). -/
def execZzenc32 (arg : Word) (s : State) : Outcome :=
  acceptStep (zigzagDone 0x2#4 (resultWord (zzEnc 32 (operand 32 arg)))) s

/-- ZZENC64 (R86). -/
def execZzenc64 (arg : Word) (s : State) : Outcome :=
  acceptStep (zigzagDone 0x3#4 (resultWord (zzEnc 64 (operand 64 arg)))) s

/-- ZZDEC8 (R87). -/
def execZzdec8 (arg : Word) (s : State) : Outcome :=
  acceptStep (zigzagDone 0x4#4 (resultWord (zzDec 8 (operand 8 arg)))) s

/-- ZZDEC16 (R88). -/
def execZzdec16 (arg : Word) (s : State) : Outcome :=
  acceptStep (zigzagDone 0x5#4 (resultWord (zzDec 16 (operand 16 arg)))) s

/-- ZZDEC32 (R89). -/
def execZzdec32 (arg : Word) (s : State) : Outcome :=
  acceptStep (zigzagDone 0x6#4 (resultWord (zzDec 32 (operand 32 arg)))) s

/-- ZZDEC64 (R90). -/
def execZzdec64 (arg : Word) (s : State) : Outcome :=
  acceptStep (zigzagDone 0x7#4 (resultWord (zzDec 64 (operand 64 arg)))) s

end Sys2Proof.Machine
end

