-- ==== Sys2Proof/Machine/VarintDecode.lean ====
section
/-! DEFINITION. The varint decode family (42_varint_decode.md): the four operations' `Accept` steps (R120) and the
`Read` step that follows them once a byte (R121). -/

namespace Sys2Proof.Machine

open Sys2Proof

/-- Starting a decode (R63, R120): OP takes the code, ACC and CNT are cleared and PHASE goes to DEC. -/
def startDecode (code : BitVec 4) (b : Block) : Block :=
  { b with op := code, acc := 0#64, cnt := 0#4, phase := .dec }

/-- VDECU32 (R125). -/
def execVdecu32 (s : State) : Outcome := acceptStep (startDecode 0xC#4) s

/-- VDECU64 (R126). -/
def execVdecu64 (s : State) : Outcome := acceptStep (startDecode 0xD#4) s

/-- VDECS32 (R127). -/
def execVdecs32 (s : State) : Outcome := acceptStep (startDecode 0xE#4) s

/-- VDECS64 (R128). -/
def execVdecs64 (s : State) : Outcome := acceptStep (startDecode 0xF#4) s

/-- The partial result with one more group (R121): the payload of `x` joins ACC at bit `7 * CNT`, at width `w`, so
that bits above `w-1` are dropped (R123). -/
def decAccumulate (w : Nat) (x : Byte) (b : Block) : BitVec w :=
  operand w b.acc ||| shiftLeftW ((payload x).setWidth w) (Config.groupBits * b.cnt.toNat)

/-- What a decode of width `w` returns for a finished accumulation: the signed operations apply zig-zag (R121). -/
def decResult (w : Nat) (op : BitVec 4) (acc : BitVec w) : BitVec w :=
  if isSigned op then zzDec w acc else acc

/-- What a byte from the source does to the registers of a decode of width `w` (R121): a terminator ends the
operation, the last permitted group without one is Overflow, any other byte leaves it in DEC. -/
def decAdvance (w : Nat) (x : Byte) (b : Block) : Block :=
  if contFlag x = false then
    b.respond .ok (resultWord (decResult w b.op (decAccumulate w x b))) (b.cnt + 1#4)
  else if (b.cnt + 1#4).toNat = maxBytes w then b.raise .overflow (b.cnt + 1#4)
  else { b with acc := resultWord (decAccumulate w x b), cnt := b.cnt + 1#4 }

/-- The `Read` step (R121), only while PHASE = DEC: the block requests a byte and the source answers. -/
def readStep (ans : SrcAnswer) (s : State) : Outcome :=
  match s.blk.phase with
  | .idle => .fault .readNotRequested
  | .enc => .fault .readNotRequested
  | .resp => .fault .readNotRequested
  | .dec =>
    match ans with
    | .endInput => .next (s.withBlk (s.blk.raise .endOfInput s.blk.cnt))
    | .ioFail => .next (s.withBlk (s.blk.raise .ioFailure s.blk.cnt))
    | .byte x => .next (s.withBlk (decAdvance (varintWidth s.blk.op) x s.blk))

end Sys2Proof.Machine
end

