-- ==== Sys2Proof/Machine/VarintEncode.lean ====
section
/-! DEFINITION. The varint encode family (41_varint_encode.md): the four operations' `Accept` steps (R103) and the
`Write` step that follows them once a byte (R100). -/

namespace Sys2Proof.Machine

open Sys2Proof

/-- Starting an encode (R63, R103): OP takes the code, ACC the value, CNT is cleared and PHASE goes to ENC. -/
def startEncode (code : BitVec 4) (value : Word) (b : Block) : Block :=
  { b with op := code, acc := value, cnt := 0#4, phase := .enc }

/-- VENCU32 (R104). -/
def execVencu32 (arg : Word) (s : State) : Outcome :=
  acceptStep (startEncode 0x8#4 (resultWord (operand 32 arg))) s

/-- VENCU64 (R105). -/
def execVencu64 (arg : Word) (s : State) : Outcome :=
  acceptStep (startEncode 0x9#4 (resultWord (operand 64 arg))) s

/-- VENCS32 (R106): the zig-zag of the operand is encoded. -/
def execVencs32 (arg : Word) (s : State) : Outcome :=
  acceptStep (startEncode 0xA#4 (resultWord (zzEnc 32 (operand 32 arg)))) s

/-- VENCS64 (R107): the zig-zag of the operand is encoded. -/
def execVencs64 (arg : Word) (s : State) : Outcome :=
  acceptStep (startEncode 0xB#4 (resultWord (zzEnc 64 (operand 64 arg)))) s

/-- What a byte answered Ok does to the registers (R100): the terminator ends the operation, any other byte leaves
it in ENC with the rest of the value. -/
def encAdvance (b : Block) : Block :=
  if restOf b.acc = 0#64 then b.respond .ok 0#64 (b.cnt + 1#4)
  else { b with acc := restOf b.acc, cnt := b.cnt + 1#4 }

/-- The `Write` step (R100), only while PHASE = ENC: the block offers `encbyte(ACC)` and the sink answers. -/
def writeStep (ans : SnkAnswer) (s : State) : Outcome :=
  match s.blk.phase with
  | .idle => .fault .writeNotRequested
  | .dec => .fault .writeNotRequested
  | .resp => .fault .writeNotRequested
  | .enc =>
    match ans with
    | .ioFail => .next (s.withBlk (s.blk.raise .ioFailure s.blk.cnt))
    | .ok => .next ((s.pushSink (encbyte s.blk.acc)).withBlk (encAdvance s.blk))

end Sys2Proof.Machine
end

