-- ==== Sys2Proof/Machine/Dispatch.lean ====
section
/-! DEFINITION. One arm per constructor of Instr: the Accept step of that operation (R63). -/

namespace Sys2Proof.Machine

open Sys2Proof

def exec (i : Instr) (s : State) : Host.Outcome State Fault Refusal :=
  match i with
  | .zzenc8 arg => Sys2Proof.Machine.execZzenc8 arg s
  | .zzenc16 arg => Sys2Proof.Machine.execZzenc16 arg s
  | .zzenc32 arg => Sys2Proof.Machine.execZzenc32 arg s
  | .zzenc64 arg => Sys2Proof.Machine.execZzenc64 arg s
  | .zzdec8 arg => Sys2Proof.Machine.execZzdec8 arg s
  | .zzdec16 arg => Sys2Proof.Machine.execZzdec16 arg s
  | .zzdec32 arg => Sys2Proof.Machine.execZzdec32 arg s
  | .zzdec64 arg => Sys2Proof.Machine.execZzdec64 arg s
  | .vencu32 arg => Sys2Proof.Machine.execVencu32 arg s
  | .vencu64 arg => Sys2Proof.Machine.execVencu64 arg s
  | .vencs32 arg => Sys2Proof.Machine.execVencs32 arg s
  | .vencs64 arg => Sys2Proof.Machine.execVencs64 arg s
  | .vdecu32 => Sys2Proof.Machine.execVdecu32 s
  | .vdecu64 => Sys2Proof.Machine.execVdecu64 s
  | .vdecs32 => Sys2Proof.Machine.execVdecs32 s
  | .vdecs64 => Sys2Proof.Machine.execVdecs64 s

end Sys2Proof.Machine
end

