-- ==== Sys2Proof/Machine/Sequencer.lean ====
section
/-! DEFINITION. The block's step relation (R21): the five kinds of step, and which one the environment's data makes
next. -/

namespace Sys2Proof.Machine

open Sys2Proof

/-- The `Accept` step (R63). A legal command runs its operation's arm. A command with a reserved bit set responds
IllegalCommand at once, and leaves OP unchanged. -/
def acceptCommand (c : Command) (s : State) : Outcome :=
  match decode c with
  | .ok i => exec i s
  | .error _ => acceptStep (fun b => b.raise .illegalCommand 0#4) s

/-- One step of the given kind (R21), or the reason it is not enabled in this phase. -/
def fire (e : Event) (s : State) : Outcome :=
  match e with
  | .accept c => acceptCommand c s
  | .write ans => writeStep ans s
  | .read ans => readStep ans s
  | .deliver => deliver s
  | .reset => .next (resetBlock s)

/-- What the environment makes of the coming step: a step of a kind, with the environment it leaves, or none. -/
inductive Offer where
  | event (e : Event) (v : Env)
  | wait (why : Fault)
deriving DecidableEq, Repr

/-- The coming step. While `rst` is high it is `Reset` and no other (R160). Else PHASE says which handshake is open
(R27) and the environment whether it completes. -/
def State.offer (s : State) : Offer :=
  if s.env.rstHigh then .event .reset s.env.passRst
  else
    match s.blk.phase with
    | .idle =>
      match s.env.passRst.nextCmd with
      | some (c, v) => .event (.accept c) v
      | none => .wait .noCommandOffered
    | .enc =>
      match s.env.passRst.nextSnk with
      | some (a, v) => .event (.write a) v
      | none => .wait .sinkNotAnswering
    | .dec =>
      match s.env.passRst.nextSrc with
      | some (a, v) => .event (.read a) v
      | none => .wait .sourceNotAnswering
    | .resp => if s.env.rspReady then .event .deliver s.env.passRst else .wait .responseNotTaken

/-- The coming step taken: the offered event fires in the environment it leaves; with none offered, no step is
enabled (R21, R44). -/
def takeOffer (s : State) : Outcome :=
  match s.offer with
  | .event e v => fire e { s with env := v }
  | .wait why => .fault why

end Sys2Proof.Machine
end

