-- ==== Sys2Proof/Machine/Step.lean ====
section
/-! DEFINITION. One step of the machine, and the state whose next step runs a given opcode-table word. -/

namespace Sys2Proof.Machine

open Sys2Proof

/-- One step of the block (R21), chosen by the environment's data. -/
def step (s : State) : Host.Outcome State Fault Refusal := takeOffer s

/-- The state `s` with a command first on the command port, so that the next step accepts and runs it (log 6). -/
def State.withFetchWord (s : State) (nbits w : Nat) : State := s.offerFirst (wordCommand nbits w)

end Sys2Proof.Machine
end

