-- ==== Sys2Proof/Machine/Ports.lean ====
section
/-! DEFINITION. The signal level (R34): the ports, the answer encodings (R72), the derived outputs (R27) and one rising
clock edge. Informative in the spec; the transaction level of `fire` is normative, and the edge is written over it. -/

namespace Sys2Proof.Machine

open Sys2Proof

/-- The block's inputs at one rising edge of `clk` (R34). -/
structure PortIn where
  rst : Bool
  cmdValid : Bool
  cmdOp : Byte
  cmdArg : Word
  rspReady : Bool
  srcAck : Bool
  srcKind : BitVec 2
  srcData : Byte
  snkAck : Bool
  snkErr : Bool
deriving DecidableEq, Repr

/-- The block's outputs (R34, R27). The response ports are shown only while `rsp_valid`, and `snk_data` only while
`snk_req` (R26, R27; log 19). -/
structure PortOut where
  cmdReady : Bool
  rspValid : Bool
  rsp : Option Response
  srcReq : Bool
  snkReq : Bool
  snkData : Option Byte
deriving DecidableEq, Repr

/-- The outputs derived from the registers (R27). -/
def Block.ports (b : Block) : PortOut :=
  { cmdReady := decide (b.phase = .idle)
    rspValid := decide (b.phase = .resp)
    rsp := if b.phase = .resp then some b.response else none
    srcReq := decide (b.phase = .dec)
    snkReq := decide (b.phase = .enc)
    snkData := if b.phase = .enc then some (encbyte b.acc) else none }

/-- The source's answer on `src_kind` and `src_data` (R72): 0 Byte, 1 End, 2 IoFail, 3 read as IoFail. -/
def PortIn.srcAnswer (p : PortIn) : SrcAnswer :=
  if p.srcKind = 0#2 then .byte p.srcData else if p.srcKind = 1#2 then .endInput else .ioFail

/-- The sink's answer on `snk_err` (R72): 0 Ok, 1 IoFail. -/
def PortIn.snkAnswer (p : PortIn) : SnkAnswer := if p.snkErr then .ioFail else .ok

/-- The handshake that completes at an edge, if one does: its request and its answer are present in the same cycle
(R34). A high `rst` is `Reset` and nothing else (R160). -/
def PortIn.handshake (p : PortIn) (phase : Phase) : Option Event :=
  if p.rst then some .reset
  else
    match phase with
    | .idle => if p.cmdValid then some (.accept ⟨p.cmdOp, p.cmdArg⟩) else none
    | .enc => if p.snkAck then some (.write p.snkAnswer) else none
    | .dec => if p.srcAck then some (.read p.srcAnswer) else none
    | .resp => if p.rspReady then some .deliver else none

/-- The streams when a reset cuts an open handshake and its byte was transferred all the same (R161, I8). In ENC the
sink has the offered byte. In DEC the byte is gone from a source that is not read here (log 13). -/
def State.cutTransfer (s : State) : State :=
  match s.blk.phase with
  | .enc => s.pushSink (encbyte s.blk.acc)
  | .dec => s
  | .idle => s
  | .resp => s

/-- One rising edge: the completed handshake is one step of R21; with none completed nothing changes. The answers
come from the ports here, so the environment's plans are not read. `raced` is the outcome of the race of I8, which the
environment decides: whether the byte of a handshake that a reset cuts was transferred (log 13). -/
def edge (raced : Bool) (p : PortIn) (s : State) : Outcome :=
  match p.handshake s.blk.phase with
  | some e => fire e (if p.rst && raced then s.cutTransfer else s)
  | none => .next s

end Sys2Proof.Machine
end

