-- ==== Sys2Proof/WellFormed.lean ====
section
/-! DEFINITION. Which assembler lines are well formed (R67). A term of `Instr` needs no check of its own: its only
field is the 64-bit `ARG` port, every pattern of which is a legal operand (R64, I14), so every instruction is well
formed. What can be ill formed is the text form of a command. -/

namespace Sys2Proof

/-- An operand as R67 writes it: a decimal number, perhaps with a minus sign, or a hexadecimal number. -/
inductive AsmOperand where
  | dec (minus : Bool) (n : Nat)
  | hex (n : Nat)
deriving DecidableEq, Repr

/-- One line of a program (R67): a mnemonic, named here by its operation code of R62, with its operand if it takes
one, or a raw command byte with its operand. -/
inductive AsmLine where
  | op (code : BitVec 4) (operand : Option AsmOperand)
  | raw (cmd : Nat) (operand : AsmOperand)
deriving DecidableEq, Repr

/-- The number an operand writes. -/
def AsmOperand.value : AsmOperand → Int
  | .dec true n => -(n : Int)
  | .dec false n => n
  | .hex n => n

/-- Whether the operand carries a minus sign. -/
def AsmOperand.hasMinus : AsmOperand → Bool
  | .dec minus _ => minus
  | .hex _ => false

/-- The operations whose operand may be negative, ZZENC* and VENCS* (R67). -/
def signedOperand (code : BitVec 4) : Bool :=
  !isDecode code && (!isVarint code || isSigned code)

/-- The four operations written without an operand, VDEC* (R67). -/
def noOperand (code : BitVec 4) : Bool := isVarint code && isDecode code

/-- An unsigned operand lies in `0 .. 2^W - 1` (R67). A signed one has a W-bit two's-complement pattern (log 17). -/
def operandInRange (code : BitVec 4) (v : Int) : Bool :=
  let w := opWidth code
  if signedOperand code then decide (-(2 ^ (w - 1) : Int) ≤ v ∧ v < 2 ^ w) else decide (0 ≤ v ∧ v < 2 ^ w)

/-- The checks of R67 on one line. DESIGN CHOICE (log 21): R67 gives the operand of a raw line no range and no sign rule.
The model takes it for the 64 bits of ARG as they are driven: `0 .. 2^64 - 1`, and nothing below 0, whatever the raw
byte. -/
def AsmLine.wf : AsmLine → Bool
  | .op code none => noOperand code
  | .op code (some x) => !noOperand code && (!x.hasMinus || signedOperand code) && operandInRange code x.value
  | .raw cmd x => decide (cmd < 2 ^ 8) && decide (0 ≤ x.value ∧ x.value < 2 ^ 64)

end Sys2Proof
end

