-- ==== Sys2Proof/Machine/Program.lean ====
section
/-! DEFINITION. Programs as R67 writes them: the names of the operations (R62, R68), assembling a line, and the state in
which a program is about to run (95_test_vectors.md, notation and L3). -/

namespace Sys2Proof.Machine

open Sys2Proof

/-- The mnemonic of an operation code (R62). -/
def mnemonicName (code : BitVec 4) : String :=
  match decodeOp code 0#64 with
  | .zzenc8 _ => "ZZENC8"
  | .zzenc16 _ => "ZZENC16"
  | .zzenc32 _ => "ZZENC32"
  | .zzenc64 _ => "ZZENC64"
  | .zzdec8 _ => "ZZDEC8"
  | .zzdec16 _ => "ZZDEC16"
  | .zzdec32 _ => "ZZDEC32"
  | .zzdec64 _ => "ZZDEC64"
  | .vencu32 _ => "VENCU32"
  | .vencu64 _ => "VENCU64"
  | .vencs32 _ => "VENCS32"
  | .vencs64 _ => "VENCS64"
  | .vdecu32 => "VDECU32"
  | .vdecu64 => "VDECU64"
  | .vdecs32 => "VDECS32"
  | .vdecs64 => "VDECS64"

/-- The source's function name that a mnemonic stands for (R68). The zig-zag functions are named with their width
beside the name. -/
def sourceFunction (code : BitVec 4) : String × Nat :=
  (match decodeOp code 0#64 with
    | .zzenc8 _ => "zigzag_encode"
    | .zzenc16 _ => "zigzag_encode"
    | .zzenc32 _ => "zigzag_encode"
    | .zzenc64 _ => "zigzag_encode"
    | .zzdec8 _ => "zigzag_decode"
    | .zzdec16 _ => "zigzag_decode"
    | .zzdec32 _ => "zigzag_decode"
    | .zzdec64 _ => "zigzag_decode"
    | .vencu32 _ => "encode_unsigned_32"
    | .vencu64 _ => "encode_unsigned_64"
    | .vencs32 _ => "encode_signed_32"
    | .vencs64 _ => "encode_signed_64"
    | .vdecu32 => "decode_unsigned_32"
    | .vdecu64 => "decode_unsigned_64"
    | .vdecs32 => "decode_signed_32"
    | .vdecs64 => "decode_signed_64", opWidth code)

/-- The command a line stands for (R67), `none` for a line that is not well formed. A negative operand is driven
sign-extended, as program P1 drives it; the block reads only its low W bits (R64; log 18). -/
def assembleLine (l : AsmLine) : Option Command :=
  if l.wf then
    match l with
    | .op code none => some ⟨code.setWidth 8, 0#64⟩
    | .op code (some x) => some ⟨code.setWidth 8, BitVec.ofInt 64 x.value⟩
    | .raw cmd x => some ⟨BitVec.ofNat 8 cmd, BitVec.ofInt 64 x.value⟩
  else none

/-- A program (R67): the source's byte list and the commands, one a line. -/
structure Program where
  source : List Byte
  lines : List AsmLine
deriving DecidableEq, Repr

/-- The start of a program (95_test_vectors.md): the registers at reset, the source answering its bytes and then End
forever, the sink answering Ok, and a host that offers the commands in order and takes every response (log 20). -/
def Program.load (p : Program) : Option State :=
  (p.lines.mapM assembleLine).map fun cmds =>
    { blk := Block.reset
      env := { cmds := cmds, rspReady := true, src := p.source.map SrcAnswer.byte, srcThen := some .endInput,
               snk := [], snkThen := some .ok, sink := [], taken := [], rst := [] } }

end Sys2Proof.Machine
end

