-- ==== Sys2Proof/Safety.lean ====
section
/-! DEFINITION. The terms claims are made in: the invariants of reachable states (R35), the closed forms of a varint's
bytes and value (R101, R102, R129), the end of a run (R170), and when two blocks look alike from outside (R31). -/

namespace Sys2Proof.Machine

open Sys2Proof

/-- The response registers hold values the block can produce (R33: status 0 to 4, count 0 to 10). -/
abbrev Block.RspLegal (b : Block) : Prop := b.rspStatus.toNat ≤ 4 ∧ b.rspCount.toNat ≤ 10

/-- R35 in ENC: an encode is in flight, and what remains to be emitted fits the width and the bytes left. -/
abbrev Block.EncInv (b : Block) : Prop :=
  b.phase = .enc →
    isVarint b.op = true ∧ isDecode b.op = false ∧
    b.acc.toNat < 2 ^ opWidth b.op ∧ b.cnt.toNat < maxBytes (opWidth b.op) ∧
    (7 * b.cnt.toNat < opWidth b.op → b.acc.toNat < 2 ^ (opWidth b.op - 7 * b.cnt.toNat))

/-- R35 in DEC: a decode is in flight, and the partial result holds the groups read so far and no more. -/
abbrev Block.DecInv (b : Block) : Prop :=
  b.phase = .dec →
    isVarint b.op = true ∧ isDecode b.op = true ∧
    b.cnt.toNat < maxBytes (opWidth b.op) ∧ b.acc.toNat < 2 ^ min (opWidth b.op) (7 * b.cnt.toNat)

/-- R35 in RESP: the count is at most MAX_BYTES(W) for a varint operation and 0 for a zig-zag operation or an illegal
command (whose status is 4 and which leaves OP unchanged), and RSP_VALUE[63:W] = 0. -/
abbrev Block.RespInv (b : Block) : Prop :=
  b.phase = .resp →
    b.rspValue.toNat < 2 ^ opWidth b.op ∧
    (b.rspStatus = Status.code (.err .illegalCommand) → b.rspCount = 0#4) ∧
    (b.rspStatus ≠ Status.code (.err .illegalCommand) → isVarint b.op = false → b.rspCount = 0#4) ∧
    (b.rspStatus ≠ Status.code (.err .illegalCommand) → isVarint b.op = true →
      b.rspCount.toNat ≤ maxBytes (opWidth b.op))

/-- The invariants of reachable states (R35), with the value ranges of the response registers (R33). -/
abbrev State.Inv (s : State) : Prop := s.blk.RspLegal ∧ s.blk.EncInv ∧ s.blk.DecInv ∧ s.blk.RespInv

/-- `len(v)` of R101: `ceil(bit_length(v) / 7)` for a non-zero value and 1 for zero. -/
def varintLen (v : Word) : Nat := if v = 0#64 then 1 else (Nat.log2 v.toNat + 1 + 6) / 7

/-- Byte `k` of the varint of `v` (R102): value bits `7k+6 .. 7k`, with bit 7 set on every byte but the last. -/
def varintByte (v : Word) (k : Nat) : Byte :=
  (v.extractLsb' (7 * k) 7).setWidth 8 ||| (if k + 1 < varintLen v then 0x80#8 else 0x00#8)

/-- The varint of `v` (R102), first byte first. -/
def varintBytes (v : Word) : List Byte := (List.range (varintLen v)).map (varintByte v)

/-- `sum over k of b_k[6:0] * 2^(7k)` of R129, the number a byte sequence carries. -/
def groupSum : List Byte → Nat
  | [] => 0
  | b :: bs => (payload b).toNat + 2 ^ 7 * groupSum bs

/-- A run has ended (R170): IDLE, no command left to offer. A response not taken leaves the block in RESP. -/
def State.ended (s : State) : Bool := decide (s.blk.phase = .idle) && s.env.cmds.isEmpty

/-- No step is enabled and the block waits for its environment (R44, R165), or has nothing to do. -/
def Fault.isWait : Fault → Bool
  | .noCommandOffered => true
  | .sinkNotAnswering => true
  | .sourceNotAnswering => true
  | .responseNotTaken => true
  | .acceptWhileBusy => false
  | .writeNotRequested => false
  | .readNotRequested => false
  | .noResponsePending => false

/-- Two blocks agree on everything a later step reads (R31): the phase; in ENC and DEC the operation, the accumulator
and the count; in RESP the response. -/
def Block.Alike (b c : Block) : Prop :=
  b.phase = c.phase ∧
  (b.phase = .enc ∨ b.phase = .dec → b.op = c.op ∧ b.acc = c.acc ∧ b.cnt = c.cnt) ∧
  (b.phase = .resp → b.response = c.response)

/-- `k` steps of the machine, stopping at the first that does not answer a next state. -/
def runFor (k : Nat) (s : State) : Outcome := Host.Core.run Sys2Proof.core k s

/-- The host offers `c` to a block in IDLE, with `rst` low from here on, and will offer `rest` after it. -/
abbrev State.Offers (s : State) (c : Command) (rest : List Command) : Prop :=
  s.blk.phase = .idle ∧ s.env.rst = [] ∧ s.env.cmds = c :: rest

/-- The state after a zig-zag operation with this code and result: OP written, and the response (OK, result, 0). -/
def State.zigzagAnswered (s : State) (code : BitVec 4) (r : Word) : State :=
  { s with blk := { s.blk with op := code, phase := .resp, rspStatus := 0#3, rspValue := r, rspCount := 0#4 } }

/-- The state after an encode has started with this code and value (R103). -/
def State.encodeStarted (s : State) (code : BitVec 4) (v : Word) : State :=
  { s with blk := { s.blk with op := code, acc := v, cnt := 0#4, phase := .enc } }

/-- The state after a decode has started with this code (R120). -/
def State.decodeStarted (s : State) (code : BitVec 4) : State :=
  { s with blk := { s.blk with op := code, acc := 0#64, cnt := 0#4, phase := .dec } }

/-- The state after the whole run of one command that ended in a response: the command taken off the port, the given
registers, sink answers left, source answers left, and bytes added to the sink. Nothing else differs from `s`. -/
def State.afterRun (s : State) (rest : List Command) (op : BitVec 4) (acc : Word) (cnt : Nat) (status : Status)
    (value : Word) (count : Nat) (src : List SrcAnswer) (snk : List SnkAnswer) (written : List Byte) : State :=
  { blk := { phase := .resp, op := op, acc := acc, cnt := BitVec.ofNat 4 cnt, rspStatus := status.code,
             rspValue := value, rspCount := BitVec.ofNat 4 count }
    env := { s.env with cmds := rest, src := src, snk := snk, sink := s.env.sink ++ written } }

/-- The answers a stream gives to its next requests are `as`, and `more` of its list is left after them. `l` and `t` are
its two fields: request `j` takes entry `j` of the list `l`, or the constant `t` once the list has ended (log 1). -/
abbrev Gives {α : Type} (l : List α) (t : Option α) (as more : List α) : Prop :=
  (∀ j, j < as.length → l[j]?.or t = as[j]?) ∧ more = l.drop as.length

/-- An encode of `v` by instruction `i` that meets no sink failure (R101, R102): after its `Accept` step and `len(v)`
`Write` steps the sink has gained the varint of `v`, and the response is (OK, 0, len(v)). -/
def EncodeCompletes (i : Instr) (code : BitVec 4) (v : Word) : Prop :=
  ∀ (s : State) c rest more, s.Offers c rest → decode c = .ok i →
    Gives s.env.snk s.env.snkThen (List.replicate (varintLen v) .ok) more →
    runFor (1 + varintLen v) s =
      .next (s.afterRun rest code (v >>> (7 * (varintLen v - 1))) (varintLen v - 1) .ok 0#64 (varintLen v)
        s.env.src more (varintBytes v))

/-- An encode of `v` by instruction `i` whose sink fails on byte `k` (R109): bytes 0 to k-1 are in the sink, and the
response is (IoFailure, 0, k). -/
def EncodeFailsAt (i : Instr) (code : BitVec 4) (v : Word) : Prop :=
  ∀ (s : State) c rest more k, s.Offers c rest → decode c = .ok i → k < varintLen v →
    Gives s.env.snk s.env.snkThen (List.replicate k .ok ++ [.ioFail]) more →
    runFor (1 + (k + 1)) s =
      .next (s.afterRun rest code (v >>> (7 * k)) k (.err .ioFailure) 0#64 k s.env.src more
        ((varintBytes v).take k))

/-- The value a decode of width `w` returns for the bytes `bs` (R129): the number they carry, truncated to `w` bits, with
zig-zag applied for a signed operation, zero-extended (R65). -/
def decodedWord (w : Nat) (signed : Bool) (bs : List Byte) : Word :=
  let u := BitVec.ofNat w (groupSum bs)
  (if signed then zzDec w u else u).setWidth 64

/-- A decode by instruction `i` of width `w` that reads the bytes `bs`, all but `last` with bit 7 set (R129, first
sentence). -/
def DecodeCompletes (i : Instr) (code : BitVec 4) (w : Nat) (signed : Bool) : Prop :=
  ∀ (s : State) c rest more bs last, s.Offers c rest → decode c = .ok i →
    (∀ b ∈ bs, contFlag b = true) → contFlag last = false → bs.length + 1 ≤ maxBytes w →
    Gives s.env.src s.env.srcThen ((bs ++ [last]).map .byte) more →
    runFor (1 + (bs.length + 1)) s =
      .next (s.afterRun rest code (BitVec.ofNat 64 (groupSum bs)) bs.length .ok
        (decodedWord w signed (bs ++ [last])) (bs.length + 1) more s.env.snk [])

/-- A decode by instruction `i` of width `w` that reads MAX_BYTES(w) bytes all with bit 7 set (R129, second sentence). -/
def DecodeOverflows (i : Instr) (code : BitVec 4) (w : Nat) : Prop :=
  ∀ (s : State) c rest more bs last, s.Offers c rest → decode c = .ok i →
    (∀ b ∈ bs ++ [last], contFlag b = true) → bs.length + 1 = maxBytes w →
    Gives s.env.src s.env.srcThen ((bs ++ [last]).map .byte) more →
    runFor (1 + maxBytes w) s =
      .next (s.afterRun rest code (BitVec.ofNat 64 (groupSum bs)) bs.length (.err .overflow) 0#64 (maxBytes w)
        more s.env.snk [])

/-- A decode by instruction `i` of width `w` whose source answers End or IoFail at its (j+1)-th request, the `j` bytes
before all having bit 7 set and `j < MAX_BYTES(w)` (R129, third sentence). -/
def DecodeCutShort (i : Instr) (code : BitVec 4) (w : Nat) : Prop :=
  ∀ (s : State) c rest more bs, s.Offers c rest → decode c = .ok i →
    (∀ b ∈ bs, contFlag b = true) → bs.length < maxBytes w →
    (Gives s.env.src s.env.srcThen (bs.map .byte ++ [.endInput]) more →
      runFor (1 + (bs.length + 1)) s =
        .next (s.afterRun rest code (BitVec.ofNat 64 (groupSum bs)) bs.length (.err .endOfInput) 0#64 bs.length
          more s.env.snk [])) ∧
    (Gives s.env.src s.env.srcThen (bs.map .byte ++ [.ioFail]) more →
      runFor (1 + (bs.length + 1)) s =
        .next (s.afterRun rest code (BitVec.ofNat 64 (groupSum bs)) bs.length (.err .ioFailure) 0#64 bs.length
          more s.env.snk []))

/-- What encoder instruction `i` writes to a sink that answers Ok to its bytes (ten at most, R70), decoder instruction `d`
reads back as the operand's low `w` bits (R110). -/
def RoundTrips (i : Word → Instr) (d : Instr) (w : Nat) : Prop :=
  ∀ (arg : Word) (s : State) c rest oks, s.Offers c rest → decode c = .ok (i arg) →
    Gives s.env.snk s.env.snkThen (List.replicate 10 .ok) oks →
    ∃ n t bytes, runFor n s = .next t ∧ t.blk.phase = .resp ∧ t.blk.rspStatus = 0#3 ∧
      t.env.sink = s.env.sink ++ bytes ∧ t.blk.rspCount.toNat = bytes.length ∧
      ∀ (u : State) c' rest' more, u.Offers c' rest' → decode c' = .ok d →
        Gives u.env.src u.env.srcThen (bytes.map .byte) more →
        ∃ m x, runFor m u = .next x ∧ x.blk.phase = .resp ∧ x.blk.rspStatus = 0#3 ∧
          x.blk.rspValue = (arg.setWidth w).setWidth 64 ∧ x.blk.rspCount.toNat = bytes.length ∧ x.env.src = more

/-- The most steps an operation takes to its response, its `Accept` step among them (R169): 1 for a zig-zag operation
or an illegal command, `1 + len(v)` for an encode of `v`, `1 + MAX_BYTES(W)` for a decode. -/
def stepBound (c : Command) : Nat :=
  match decode c with
  | .error _ => 1
  | .ok (.zzenc8 _) => 1
  | .ok (.zzenc16 _) => 1
  | .ok (.zzenc32 _) => 1
  | .ok (.zzenc64 _) => 1
  | .ok (.zzdec8 _) => 1
  | .ok (.zzdec16 _) => 1
  | .ok (.zzdec32 _) => 1
  | .ok (.zzdec64 _) => 1
  | .ok (.vencu32 a) => 1 + varintLen ((a.setWidth 32).setWidth 64)
  | .ok (.vencu64 a) => 1 + varintLen a
  | .ok (.vencs32 a) => 1 + varintLen ((zzEnc 32 (a.setWidth 32)).setWidth 64)
  | .ok (.vencs64 a) => 1 + varintLen (zzEnc 64 a)
  | .ok .vdecu32 => 1 + 5
  | .ok .vdecu64 => 1 + 10
  | .ok .vdecs32 => 1 + 5
  | .ok .vdecs64 => 1 + 10

end Sys2Proof.Machine
end

