-- ==== Sys2Proof/Certificates/Slice0/Obligations.lean ====
section
/-! DEFINITION. The statements for the provers, from the numbered rules of spec/ file by file. -/

open Sys2Proof Sys2Proof.Machine

/-! ## Encoding (30_encoding.md) -/

/-- R62, R63, R66: the decoder undoes the encoder; what it reads is in the command, no bit dropped that the operation
reads; and it accepts exactly the sixteen bytes 0x00 to 0x0F. -/
def Obligations.DecodeAndEncodeAgree : Prop :=
  (∀ i, decode (encode i) = .ok i) ∧
  (∀ c i, decode c = .ok i → (encode i).cmd = c.cmd ∧ ∀ a, i.operand? = some a → a = c.arg) ∧
  (∀ c, (∃ i, decode c = .ok i) ↔ c.cmd.toNat < 16)

/-- R62: the command bytes of the opcode map, each with any operand, and three illegal bytes of 95_test_vectors.md. -/
def Obligations.OpcodeMapBytesDecode : Prop :=
  ∀ a : Word,
    decode ⟨0x00#8, a⟩ = .ok (.zzenc8 a) ∧ decode ⟨0x01#8, a⟩ = .ok (.zzenc16 a) ∧
    decode ⟨0x02#8, a⟩ = .ok (.zzenc32 a) ∧ decode ⟨0x03#8, a⟩ = .ok (.zzenc64 a) ∧
    decode ⟨0x04#8, a⟩ = .ok (.zzdec8 a) ∧ decode ⟨0x05#8, a⟩ = .ok (.zzdec16 a) ∧
    decode ⟨0x06#8, a⟩ = .ok (.zzdec32 a) ∧ decode ⟨0x07#8, a⟩ = .ok (.zzdec64 a) ∧
    decode ⟨0x08#8, a⟩ = .ok (.vencu32 a) ∧ decode ⟨0x09#8, a⟩ = .ok (.vencu64 a) ∧
    decode ⟨0x0A#8, a⟩ = .ok (.vencs32 a) ∧ decode ⟨0x0B#8, a⟩ = .ok (.vencs64 a) ∧
    decode ⟨0x0C#8, a⟩ = .ok .vdecu32 ∧ decode ⟨0x0D#8, a⟩ = .ok .vdecu64 ∧
    decode ⟨0x0E#8, a⟩ = .ok .vdecs32 ∧ decode ⟨0x0F#8, a⟩ = .ok .vdecs64 ∧
    decode ⟨0x10#8, a⟩ = .error (.reservedBitsSet 0x1#4) ∧ decode ⟨0xFF#8, a⟩ = .error (.reservedBitsSet 0xF#4) ∧
    decode ⟨0x8C#8, a⟩ = .error (.reservedBitsSet 0x8#4)

/-- R61: the width of an operation by its fields, and MAX_BYTES of the varint widths. -/
def Obligations.OperationWidths : Prop :=
  (∀ op : BitVec 4, op.getLsbD 3 = false → opWidth op = 8 * 2 ^ (op.toNat % 4)) ∧
  (∀ op : BitVec 4, op.getLsbD 3 = true → opWidth op = if op.toNat % 2 = 0 then 32 else 64) ∧
  (∀ op : BitVec 4, op.getLsbD 3 = true → maxBytes (opWidth op) = if op.toNat % 2 = 0 then 5 else 10)

/-- R64: an operation of width W reads `ARG[W-1:0]` alone. Two operands that agree there have one result. -/
def Obligations.UpperOperandBitsIgnored : Prop :=
  ∀ (a b : Word) (s : State),
    (a.setWidth 8 = b.setWidth 8 →
      exec (.zzenc8 a) s = exec (.zzenc8 b) s ∧ exec (.zzdec8 a) s = exec (.zzdec8 b) s) ∧
    (a.setWidth 16 = b.setWidth 16 →
      exec (.zzenc16 a) s = exec (.zzenc16 b) s ∧ exec (.zzdec16 a) s = exec (.zzdec16 b) s) ∧
    (a.setWidth 32 = b.setWidth 32 →
      exec (.zzenc32 a) s = exec (.zzenc32 b) s ∧ exec (.zzdec32 a) s = exec (.zzdec32 b) s ∧
      exec (.vencu32 a) s = exec (.vencu32 b) s ∧ exec (.vencs32 a) s = exec (.vencs32 b) s)

/-- R66: a command byte with a reserved bit set ends at once with IllegalCommand, value 0, count 0, no transfer, and OP
unchanged (R63); every other byte is a legal operation, and none of them is a no-op: each leaves IDLE. -/
def Obligations.ReservedCommandBytesAreIllegal : Prop :=
  ∀ (s : State) c rest, s.blk.phase = .idle → s.env.rstHigh = false → s.env.cmds = c :: rest →
    (16 ≤ c.cmd.toNat →
      step s = .next
        { blk := { s.blk with phase := .resp, rspStatus := 4#3, rspValue := 0#64, rspCount := 0#4 }
          env := { s.env with cmds := rest, rst := s.env.rst.tail } }) ∧
    (c.cmd.toNat < 16 → ∃ i t, decode c = .ok i ∧ step s = .next t ∧ t.blk.phase ≠ .idle)

/-- R67, with the range of a signed operand, the extension to 64 bits and the range of a raw line's operand as logs 17,
18 and 21 choose them: a well-formed line assembles to a command that decodes to its operation, and whose operand's low
W bits are the pattern of the number written. -/
def Obligations.AssembledLineDecodes : Prop :=
  (∀ code x, (AsmLine.op code (some x)).wf = true →
    ∃ c i, assembleLine (.op code (some x)) = some c ∧ decode c = .ok i ∧ opField c.cmd = code ∧
      i.operand? = some c.arg ∧ c.arg.setWidth (opWidth code) = BitVec.ofInt (opWidth code) x.value) ∧
  (∀ code, (AsmLine.op code none).wf = true →
    ∃ c i, assembleLine (.op code none) = some c ∧ decode c = .ok i ∧ opField c.cmd = code ∧ i.operand? = none) ∧
  (∀ cmd x, (AsmLine.raw cmd x).wf = true →
    ∃ c, assembleLine (.raw cmd x) = some c ∧ c.cmd.toNat = cmd ∧ (c.arg.toNat : Int) = x.value)

/-! ## The step (10_state.md) -/

/-- A step runs the decoded instruction: with `rst` low, in IDLE, when the command on the port decodes to `i`, the step
is `exec i` at that state, with the command taken off the port and the level of `rst` passed. -/
def Obligations.StepRunsDecodedInstruction : Prop :=
  ∀ (s : State) c rest i, s.blk.phase = .idle → s.env.rstHigh = false → s.env.cmds = c :: rest → decode c = .ok i →
    step s = exec i { s with env := { s.env with cmds := rest, rst := s.env.rst.tail } }

/-- The model's own withFetchWord (log 6): the next step runs the word's instruction, from any state. -/
def Obligations.FetchedWordRunsNext : Prop :=
  ∀ (s : State) (nbits w : Nat) (i : Instr), decodeTableWord nbits w = some i →
    step (s.withFetchWord nbits w) =
      exec i { blk := { s.blk with phase := .idle },
               env := { s.env with rst := if s.env.rstHigh then s.env.rst else s.env.rst.tail } }

/-- R21: in a state that meets the invariants each kind of step is enabled in its phase and in no other; and a step of
the machine is one of these, Reset exactly when `rst` is high, in an environment that differs from the one before only
by answers and commands taken and one level of `rst` passed. Which ones are taken is StepFollowsEnvironment. -/
def Obligations.StepsEnabledByPhase : Prop :=
  ∀ s : State, s.Inv →
    (∀ c, (∃ t, fire (.accept c) s = .next t) ↔ s.blk.phase = .idle) ∧
    (∀ a, (∃ t, fire (.write a) s = .next t) ↔ s.blk.phase = .enc) ∧
    (∀ a, (∃ t, fire (.read a) s = .next t) ↔ s.blk.phase = .dec) ∧
    ((∃ t, fire .deliver s = .next t) ↔ s.blk.phase = .resp) ∧
    (∃ t, fire .reset s = .next t) ∧
    (∀ t, step s = .next t → ∃ e v, fire e { s with env := v } = .next t ∧ (e = .reset ↔ s.env.rstHigh = true) ∧
      v = { s.env with cmds := v.cmds, src := v.src, snk := v.snk, rst := s.env.rst.tail })

/-- The step by the environment (R21, R160, R41, R42; the environment as data is logs 1 and 4): `rst` high gives Reset.
With `rst` low: in IDLE the first command on the port is accepted; in ENC and DEC the step takes the first answer of the
list, or the constant once the list is empty; in RESP a host that takes responses gets this one. -/
def Obligations.StepFollowsEnvironment : Prop :=
  ∀ s : State,
    (s.env.rstHigh = true → step s = fire .reset { s with env := { s.env with rst := s.env.rst.tail } }) ∧
    (s.env.rstHigh = false →
      (∀ c rest, s.blk.phase = .idle → s.env.cmds = c :: rest →
        step s = fire (.accept c) { s with env := { s.env with cmds := rest, rst := s.env.rst.tail } }) ∧
      (∀ a more, s.blk.phase = .enc → s.env.snk = a :: more →
        step s = fire (.write a) { s with env := { s.env with snk := more, rst := s.env.rst.tail } }) ∧
      (∀ a, s.blk.phase = .enc → s.env.snk = [] → s.env.snkThen = some a →
        step s = fire (.write a) { s with env := { s.env with rst := s.env.rst.tail } }) ∧
      (∀ a more, s.blk.phase = .dec → s.env.src = a :: more →
        step s = fire (.read a) { s with env := { s.env with src := more, rst := s.env.rst.tail } }) ∧
      (∀ a, s.blk.phase = .dec → s.env.src = [] → s.env.srcThen = some a →
        step s = fire (.read a) { s with env := { s.env with rst := s.env.rst.tail } }) ∧
      (s.blk.phase = .resp → s.env.rspReady = true →
        step s = fire .deliver { s with env := { s.env with rst := s.env.rst.tail } }))

/-- R44 and R165, the waits as the model writes them (log 2): with no answer to come, the block has no step but Reset. -/
def Obligations.WaitingBlockHasOnlyReset : Prop :=
  ∀ s : State,
    (s.blk.phase = .enc → s.env.snk = [] → s.env.snkThen = none →
      step s = if s.env.rstHigh then .next { blk := Block.reset, env := { s.env with rst := s.env.rst.tail } }
        else .fault .sinkNotAnswering) ∧
    (s.blk.phase = .dec → s.env.src = [] → s.env.srcThen = none →
      step s = if s.env.rstHigh then .next { blk := Block.reset, env := { s.env with rst := s.env.rst.tail } }
        else .fault .sourceNotAnswering) ∧
    (s.blk.phase = .resp → s.env.rspReady = false →
      step s = if s.env.rstHigh then .next { blk := Block.reset, env := { s.env with rst := s.env.rst.tail } }
        else .fault .responseNotTaken)

/-- R164: outside IDLE a command is not accepted: no operation's `Accept` step is enabled, and no illegal command's. -/
def Obligations.CommandNotAcceptedWhileBusy : Prop :=
  ∀ s : State, s.blk.phase ≠ .idle →
    (∀ i, exec i s = .fault .acceptWhileBusy) ∧ (∀ c, fire (.accept c) s = .fault .acceptWhileBusy)

/-- R164: a command offered while the block is busy is not lost, and an accepted one leaves the port. -/
def Obligations.OfferedCommandIsHeld : Prop :=
  ∀ s t : State, step s = .next t → s.env.rstHigh = false →
    (s.blk.phase ≠ .idle → t.env.cmds = s.env.cmds) ∧
    (s.blk.phase = .idle → ∃ c, s.env.cmds = c :: t.env.cmds)

/-- R22, R103, R120, R147, R150: how PHASE moves while `rst` is low. An operation in flight leaves ENC or DEC for RESP
alone, and RESP for IDLE alone. -/
def Obligations.PhaseMoves : Prop :=
  ∀ s t : State, step s = .next t → s.env.rstHigh = false →
    (s.blk.phase = .idle → t.blk.phase = .enc ∨ t.blk.phase = .dec ∨ t.blk.phase = .resp) ∧
    (s.blk.phase = .enc → t.blk.phase = .enc ∨ t.blk.phase = .resp) ∧
    (s.blk.phase = .dec → t.blk.phase = .dec ∨ t.blk.phase = .resp) ∧
    (s.blk.phase = .resp → t.blk.phase = .idle)

/-- R23: OP is written only by the `Accept` step of a legal command, with that command's code. -/
def Obligations.OpWrittenOnlyByLegalAccept : Prop :=
  ∀ s t : State, step s = .next t → s.env.rstHigh = false →
    (∃ c rest i, s.blk.phase = .idle ∧ s.env.cmds = c :: rest ∧ decode c = .ok i ∧ t.blk.op = opField c.cmd) ∨
    ((s.blk.phase = .idle → ∃ c rest e, s.env.cmds = c :: rest ∧ decode c = .error e) ∧ t.blk.op = s.blk.op)

/-- R26: the response registers are written only in a step that moves PHASE to RESP (and by Reset). -/
def Obligations.ResponseWrittenOnlyOnEnteringResp : Prop :=
  ∀ s t : State, step s = .next t → s.env.rstHigh = false →
    (s.blk.phase ≠ .resp ∧ t.blk.phase = .resp) ∨
    (t.blk.rspStatus = s.blk.rspStatus ∧ t.blk.rspValue = s.blk.rspValue ∧ t.blk.rspCount = s.blk.rspCount)

/-- R27: exactly one handshake is open in each phase, and the sink is offered the encoder's byte. -/
def Obligations.OneHandshakeOpenPerPhase : Prop :=
  ∀ b : Block,
    b.ports.cmdReady = decide (b.phase = .idle) ∧ b.ports.rspValid = decide (b.phase = .resp) ∧
    b.ports.srcReq = decide (b.phase = .dec) ∧ b.ports.snkReq = decide (b.phase = .enc) ∧
    (b.phase = .enc → b.ports.snkData = some (encbyte b.acc)) ∧
    [b.ports.cmdReady, b.ports.rspValid, b.ports.srcReq, b.ports.snkReq].count true = 1

/-- R35: every step keeps the invariants of reachable states. -/
def Obligations.StepKeepsInvariants : Prop :=
  ∀ s t : State, s.Inv → step s = .next t → t.Inv

/-- R35 at reset, whatever the environment. -/
def Obligations.ResetMeetsInvariants : Prop :=
  State.reset.Inv ∧ ∀ v : Env, ({ blk := Block.reset, env := v } : State).Inv

/-- The frame of all sixteen instructions: a next state of `exec` has the same environment (no stream, no command, no
response taken), keeps ACC and CNT when the operation is zig-zag, and the response registers when it is a varint. -/
def Obligations.ExecFrame : Prop :=
  ∀ (i : Instr) (s t : State), exec i s = .next t →
    t.env = s.env ∧
    (isVarint (opField (encode i).cmd) = false → t.blk.acc = s.blk.acc ∧ t.blk.cnt = s.blk.cnt) ∧
    (isVarint (opField (encode i).cmd) = true →
      t.blk.rspStatus = s.blk.rspStatus ∧ t.blk.rspValue = s.blk.rspValue ∧ t.blk.rspCount = s.blk.rspCount)

/-! ## Zig-zag (40_zigzag.md) -/

/-- R83 to R86: the four zig-zag encode operations, with the rules' corner cases and examples. -/
def Obligations.ZigzagEncodeResults : Prop :=
  (∀ (arg : Word) (s : State), s.blk.phase = .idle →
    (encode (.zzenc8 arg)).cmd = 0x00#8 ∧ (encode (.zzenc16 arg)).cmd = 0x01#8 ∧
    (encode (.zzenc32 arg)).cmd = 0x02#8 ∧ (encode (.zzenc64 arg)).cmd = 0x03#8 ∧
    exec (.zzenc8 arg) s = .next (s.zigzagAnswered 0x0#4
      (((arg.setWidth 8 <<< 1) ^^^ (arg.setWidth 8).sshiftRight 7).setWidth 64)) ∧
    exec (.zzenc16 arg) s = .next (s.zigzagAnswered 0x1#4
      (((arg.setWidth 16 <<< 1) ^^^ (arg.setWidth 16).sshiftRight 15).setWidth 64)) ∧
    exec (.zzenc32 arg) s = .next (s.zigzagAnswered 0x2#4
      (((arg.setWidth 32 <<< 1) ^^^ (arg.setWidth 32).sshiftRight 31).setWidth 64)) ∧
    exec (.zzenc64 arg) s = .next (s.zigzagAnswered 0x3#4 ((arg <<< 1) ^^^ arg.sshiftRight 63))) ∧
  (∀ s : State, s.blk.phase = .idle →
    (∀ p ∈ ([(0x80, 0xFF), (0x7F, 0xFE), (0xFF, 0x01), (0xFC, 0x07)] : List (Word × Word)),
      exec (.zzenc8 p.1) s = .next (s.zigzagAnswered 0x0#4 p.2)) ∧
    (∀ p ∈ ([(0x8000, 0xFFFF), (0x7FFF, 0xFFFE), (0xFFFF, 0x0001), (0xFFFE, 0x3)] : List (Word × Word)),
      exec (.zzenc16 p.1) s = .next (s.zigzagAnswered 0x1#4 p.2)) ∧
    (∀ p ∈ ([(0x80000000, 0xFFFFFFFF), (0x7FFFFFFF, 0xFFFFFFFE), (0xFFFFFFFF, 1)] : List (Word × Word)),
      exec (.zzenc32 p.1) s = .next (s.zigzagAnswered 0x2#4 p.2)) ∧
    (∀ p ∈ ([(0x8000000000000000, 0xFFFFFFFFFFFFFFFF), (0x7FFFFFFFFFFFFFFF, 0xFFFFFFFFFFFFFFFE), (2, 4)] :
        List (Word × Word)),
      exec (.zzenc64 p.1) s = .next (s.zigzagAnswered 0x3#4 p.2)))

/-- R87 to R90: the four zig-zag decode operations, with the rules' corner cases and examples. -/
def Obligations.ZigzagDecodeResults : Prop :=
  (∀ (arg : Word) (s : State), s.blk.phase = .idle →
    (encode (.zzdec8 arg)).cmd = 0x04#8 ∧ (encode (.zzdec16 arg)).cmd = 0x05#8 ∧
    (encode (.zzdec32 arg)).cmd = 0x06#8 ∧ (encode (.zzdec64 arg)).cmd = 0x07#8 ∧
    exec (.zzdec8 arg) s = .next (s.zigzagAnswered 0x4#4
      (((arg.setWidth 8 >>> 1) ^^^ -(arg.setWidth 8 &&& 1#8)).setWidth 64)) ∧
    exec (.zzdec16 arg) s = .next (s.zigzagAnswered 0x5#4
      (((arg.setWidth 16 >>> 1) ^^^ -(arg.setWidth 16 &&& 1#16)).setWidth 64)) ∧
    exec (.zzdec32 arg) s = .next (s.zigzagAnswered 0x6#4
      (((arg.setWidth 32 >>> 1) ^^^ -(arg.setWidth 32 &&& 1#32)).setWidth 64)) ∧
    exec (.zzdec64 arg) s = .next (s.zigzagAnswered 0x7#4 ((arg >>> 1) ^^^ -(arg &&& 1#64)))) ∧
  (∀ s : State, s.blk.phase = .idle →
    (∀ p ∈ ([(0xFF, 0x80), (0xFE, 0x7F), (0x01, 0xFF), (0x07, 0xFC)] : List (Word × Word)),
      exec (.zzdec8 p.1) s = .next (s.zigzagAnswered 0x4#4 p.2)) ∧
    (∀ p ∈ ([(0xFFFF, 0x8000), (0xFFFE, 0x7FFF), (0x0001, 0xFFFF), (0x0003, 0xFFFE)] : List (Word × Word)),
      exec (.zzdec16 p.1) s = .next (s.zigzagAnswered 0x5#4 p.2)) ∧
    (∀ p ∈ ([(0xFFFFFFFF, 0x80000000), (0xFFFFFFFE, 0x7FFFFFFF), (0, 0), (2, 1)] : List (Word × Word)),
      exec (.zzdec32 p.1) s = .next (s.zigzagAnswered 0x6#4 p.2)) ∧
    (∀ p ∈ ([(0xFFFFFFFFFFFFFFFF, 0x8000000000000000), (0xFFFFFFFFFFFFFFFE, 0x7FFFFFFFFFFFFFFF),
        (3, 0xFFFFFFFFFFFFFFFE)] : List (Word × Word)),
      exec (.zzdec64 p.1) s = .next (s.zigzagAnswered 0x7#4 p.2)))

/-- R82: the two functions read as integers, their extreme values, and that they are inverse bijections, at each of the
four widths. -/
def Obligations.ZigzagIntegerLaws : Prop :=
  ∀ w, w = 8 ∨ w = 16 ∨ w = 32 ∨ w = 64 →
    (∀ a : BitVec w, (0 ≤ a.toInt → ((zzEnc w a).toNat : Int) = 2 * a.toInt) ∧
      (a.toInt < 0 → ((zzEnc w a).toNat : Int) = -2 * a.toInt - 1)) ∧
    (∀ u : BitVec w, (u.toNat % 2 = 0 → (zzDec w u).toInt = (u.toNat : Int) / 2) ∧
      (u.toNat % 2 = 1 → (zzDec w u).toInt = -(((u.toNat : Int) + 1) / 2))) ∧
    (∀ a : BitVec w, a.toInt = 2 ^ (w - 1) - 1 → (zzEnc w a).toNat = 2 ^ w - 2) ∧
    (∀ a : BitVec w, a.toInt = -2 ^ (w - 1) → (zzEnc w a).toNat = 2 ^ w - 1) ∧
    (∀ a : BitVec w, zzDec w (zzEnc w a) = a) ∧
    (∀ u : BitVec w, zzEnc w (zzDec w u) = u)

/-- R91: computing at 64 bits and truncating agrees with the width's own operation for zig-zag decode, and does not for
zig-zag encode, whose sign comes from bit W-1. -/
def Obligations.WiderZigzagAgreesOnlyForDecode : Prop :=
  ∀ w, w = 8 ∨ w = 16 ∨ w = 32 →
    (∀ u : BitVec w, (zzDec 64 (u.setWidth 64)).setWidth w = zzDec w u) ∧
    (∃ a : BitVec w, (zzEnc 64 (a.setWidth 64)).setWidth w ≠ zzEnc w a)

/-! ## Varint encode (41_varint_encode.md) -/

/-- R103: the `Accept` steps of the four encode operations, CMD 0x08 to 0x0B: the value is latched, zig-zagged when
signed, and nothing is written to the sink yet. -/
def Obligations.EncodeStarts : Prop :=
  ∀ (arg : Word) (s : State), s.blk.phase = .idle →
    (encode (.vencu32 arg)).cmd = 0x08#8 ∧ (encode (.vencu64 arg)).cmd = 0x09#8 ∧
    (encode (.vencs32 arg)).cmd = 0x0A#8 ∧ (encode (.vencs64 arg)).cmd = 0x0B#8 ∧
    exec (.vencu32 arg) s = .next (s.encodeStarted 0x8#4 ((arg.setWidth 32).setWidth 64)) ∧
    exec (.vencu64 arg) s = .next (s.encodeStarted 0x9#4 arg) ∧
    exec (.vencs32 arg) s = .next (s.encodeStarted 0xA#4
      (((arg.setWidth 32 <<< 1) ^^^ (arg.setWidth 32).sshiftRight 31).setWidth 64)) ∧
    exec (.vencs64 arg) s = .next (s.encodeStarted 0xB#4 ((arg <<< 1) ^^^ arg.sshiftRight 63))

/-- R100: the `Write` step: IoFail ends the operation with IoFailure and the count so far, the byte not written; Ok
appends the offered byte, and ends the operation or leaves it in ENC with the rest of the value. -/
def Obligations.WriteStepRule : Prop :=
  ∀ s : State, s.blk.phase = .enc →
    fire (.write .ioFail) s = .next { s with
      blk := { s.blk with rspStatus := 3#3, rspValue := 0#64, rspCount := s.blk.cnt, phase := .resp } } ∧
    (s.blk.acc >>> 7 = 0#64 → fire (.write .ok) s = .next {
      blk := { s.blk with rspStatus := 0#3, rspValue := 0#64, rspCount := s.blk.cnt + 1#4, phase := .resp }
      env := { s.env with sink := s.env.sink ++ [encbyte s.blk.acc] } }) ∧
    (s.blk.acc >>> 7 ≠ 0#64 → fire (.write .ok) s = .next {
      blk := { s.blk with acc := s.blk.acc >>> 7, cnt := s.blk.cnt + 1#4 }
      env := { s.env with sink := s.env.sink ++ [encbyte s.blk.acc] } })

/-- R102, R45 for one byte: bits 6..0 of the offered byte are bits 6..0 of the remaining value, and bit 7 is set
exactly when the remaining value does not fit one group. -/
def Obligations.OfferedByteBits : Prop :=
  ∀ x : Word, (∀ j, j < 7 → (encbyte x).getLsbD j = x.getLsbD j) ∧
    (encbyte x).getLsbD 7 = decide (2 ^ 7 ≤ x.toNat)

/-- R101: the length of a varint by its thresholds, and the most bytes of a 32-bit and of a 64-bit value. -/
def Obligations.VarintLengthThresholds : Prop :=
  (∀ v : Word, v.toNat < 2 ^ 7 ↔ varintLen v = 1) ∧
  (∀ (v : Word) (k : Nat), 2 ≤ k → (varintLen v = k ↔ 2 ^ (7 * (k - 1)) ≤ v.toNat ∧ v.toNat < 2 ^ (7 * k))) ∧
  (∀ v : Word, v.toNat < 2 ^ 32 → varintLen v ≤ 5) ∧ (∀ v : Word, varintLen v ≤ 10)

/-- R101, R102, R104 to R107: each encode operation that meets no sink failure writes the varint of its value, and
responds (OK, 0, len(v)). The whole state after the run is given. -/
def Obligations.EncodeWritesItsVarint : Prop :=
  ∀ arg : Word,
    EncodeCompletes (.vencu32 arg) 0x8#4 ((arg.setWidth 32).setWidth 64) ∧
    EncodeCompletes (.vencu64 arg) 0x9#4 arg ∧
    EncodeCompletes (.vencs32 arg) 0xA#4 ((zzEnc 32 (arg.setWidth 32)).setWidth 64) ∧
    EncodeCompletes (.vencs64 arg) 0xB#4 (zzEnc 64 arg)

/-- R109: a sink failure on byte k, and that an encode in flight ends in no other error. -/
def Obligations.SinkFailureEndsEncode : Prop :=
  (∀ arg : Word,
    EncodeFailsAt (.vencu32 arg) 0x8#4 ((arg.setWidth 32).setWidth 64) ∧
    EncodeFailsAt (.vencu64 arg) 0x9#4 arg ∧
    EncodeFailsAt (.vencs32 arg) 0xA#4 ((zzEnc 32 (arg.setWidth 32)).setWidth 64) ∧
    EncodeFailsAt (.vencs64 arg) 0xB#4 (zzEnc 64 arg)) ∧
  (∀ (s t : State) ans, fire (.write ans) s = .next t → t.blk.phase = .resp → t.blk.rspStatus = 0#3 ∨ t.blk.rspStatus = 3#3)

/-- R108: zero is encoded as the single byte 0x00, with count 1, by each of the four operations. -/
def Obligations.ZeroIsOneZeroByte : Prop :=
  ∀ (s : State) c rest more i, s.Offers c rest → decode c = .ok i → Gives s.env.snk s.env.snkThen [.ok] more →
    i = .vencu32 0#64 ∨ i = .vencu64 0#64 ∨ i = .vencs32 0#64 ∨ i = .vencs64 0#64 →
    runFor 2 s =
      .next (s.afterRun rest (opField c.cmd) 0#64 0 .ok 0#64 1 s.env.src more [0x00#8])

/-- R71, R110: the varint of a value is canonical, and it is the only canonical byte sequence that carries the value. -/
def Obligations.VarintIsTheOnlyCanonicalForm : Prop :=
  ∀ (v : Word) (bs : List Byte) (last : Byte),
    varintBytes v = bs ++ [last] ↔
      (∀ b ∈ bs, contFlag b = true) ∧ contFlag last = false ∧ (bs ≠ [] → last ≠ 0x00#8) ∧
      groupSum (bs ++ [last]) = v.toNat

/-! ## Varint decode (42_varint_decode.md) -/

/-- R120: the `Accept` steps of the four decode operations, CMD 0x0C to 0x0F, which do not read ARG. -/
def Obligations.DecodeStarts : Prop :=
  ((encode .vdecu32).cmd = 0x0C#8 ∧ (encode .vdecu64).cmd = 0x0D#8 ∧
    (encode .vdecs32).cmd = 0x0E#8 ∧ (encode .vdecs64).cmd = 0x0F#8) ∧
  (∀ s : State, s.blk.phase = .idle →
    exec .vdecu32 s = .next (s.decodeStarted 0xC#4) ∧ exec .vdecu64 s = .next (s.decodeStarted 0xD#4) ∧
    exec .vdecs32 s = .next (s.decodeStarted 0xE#4) ∧ exec .vdecs64 s = .next (s.decodeStarted 0xF#4)) ∧
  (∀ (cmd : Byte) (a b : Word), 0x0C ≤ cmd.toNat → cmd.toNat ≤ 0x0F → decode ⟨cmd, a⟩ = decode ⟨cmd, b⟩)

/-- R121: the `Read` step. End and IoFail end the decode with the count so far. A byte joins its payload to ACC at bit
7 * CNT in W bits and ends the decode, overflows it, or leaves it in DEC, for every CNT at which that shift is below W
(CNT below M; R9 gives a longer shift no meaning). -/
def Obligations.ReadStepRule : Prop :=
  (∀ s : State, s.blk.phase = .dec →
    fire (.read .endInput) s = .next { s with
      blk := { s.blk with rspStatus := 1#3, rspValue := 0#64, rspCount := s.blk.cnt, phase := .resp } } ∧
    fire (.read .ioFail) s = .next { s with
      blk := { s.blk with rspStatus := 3#3, rspValue := 0#64, rspCount := s.blk.cnt, phase := .resp } }) ∧
  (∀ (s : State) (w m : Nat), s.blk.phase = .dec →
    (s.blk.op.getLsbD 0 = false ∧ w = 32 ∧ m = 5) ∨ (s.blk.op.getLsbD 0 = true ∧ w = 64 ∧ m = 10) →
    7 * s.blk.cnt.toNat < w →
    ∀ (b : Byte) (acc : BitVec w),
      acc = s.blk.acc.setWidth w ||| ((b.extractLsb' 0 7).setWidth w <<< (7 * s.blk.cnt.toNat)) →
      (b.getLsbD 7 = false → fire (.read (.byte b)) s = .next { s with
        blk := { s.blk with rspStatus := 0#3,
                            rspValue := (if s.blk.op.getLsbD 1 then (acc >>> 1) ^^^ -(acc &&& 1#w) else acc).setWidth 64,
                            rspCount := s.blk.cnt + 1#4, phase := .resp } }) ∧
      (b.getLsbD 7 = true → s.blk.cnt.toNat + 1 = m → fire (.read (.byte b)) s = .next { s with
        blk := { s.blk with rspStatus := 2#3, rspValue := 0#64, rspCount := s.blk.cnt + 1#4, phase := .resp } }) ∧
      (b.getLsbD 7 = true → s.blk.cnt.toNat + 1 ≠ m → fire (.read (.byte b)) s = .next { s with
        blk := { s.blk with acc := acc.setWidth 64, cnt := s.blk.cnt + 1#4 } }))

/-- R121, R129 as arithmetic: in a state that meets the invariants, a byte that leaves the decode in DEC adds its
payload times 2^(7 * CNT) to ACC, and no bit is lost. -/
def Obligations.ReadByteAddsItsGroup : Prop :=
  ∀ (s t : State) (b : Byte), s.Inv → fire (.read (.byte b)) s = .next t → t.blk.phase = .dec →
    t.blk.acc.toNat = s.blk.acc.toNat + (b.toNat % 2 ^ 7) * 2 ^ (7 * s.blk.cnt.toNat) ∧
    t.blk.cnt.toNat = s.blk.cnt.toNat + 1

/-- R129: the closed form of a decode, for the four operations: a value, Overflow, or EndOfInput and IoFailure. -/
def Obligations.DecodeClosedForm : Prop :=
  (DecodeCompletes .vdecu32 0xC#4 32 false ∧ DecodeCompletes .vdecu64 0xD#4 64 false ∧
    DecodeCompletes .vdecs32 0xE#4 32 true ∧ DecodeCompletes .vdecs64 0xF#4 64 true) ∧
  (DecodeOverflows .vdecu32 0xC#4 32 ∧ DecodeOverflows .vdecu64 0xD#4 64 ∧
    DecodeOverflows .vdecs32 0xE#4 32 ∧ DecodeOverflows .vdecs64 0xF#4 64) ∧
  (DecodeCutShort .vdecu32 0xC#4 32 ∧ DecodeCutShort .vdecu64 0xD#4 64 ∧
    DecodeCutShort .vdecs32 0xE#4 32 ∧ DecodeCutShort .vdecs64 0xF#4 64)

/-- R123: in the last group only the low 4 payload bits (W = 32) or 1 payload bit (W = 64) count; the others are
discarded and raise no error. -/
def Obligations.BitsBeyondWidthDiscarded : Prop :=
  ∀ (s : State) (b : Byte), s.blk.phase = .dec → b.getLsbD 7 = false →
    (s.blk.op.getLsbD 0 = false → s.blk.cnt = 4#4 →
      fire (.read (.byte b)) s = fire (.read (.byte (b &&& 0x0F#8))) s ∧
      ∃ t, fire (.read (.byte b)) s = .next t ∧ t.blk.rspStatus = 0#3) ∧
    (s.blk.op.getLsbD 0 = true → s.blk.cnt = 9#4 →
      fire (.read (.byte b)) s = fire (.read (.byte (b &&& 0x01#8))) s ∧
      ∃ t, fire (.read (.byte b)) s = .next t ∧ t.blk.rspStatus = 0#3)

/-- R130: from a state that meets the invariants, a read ends in Overflow exactly when it reads the MAX_BYTES(W)-th
byte with bit 7 set, and the block then requests nothing more. -/
def Obligations.OverflowFallsAtLastGroup : Prop :=
  ∀ (s t : State) (ans : SrcAnswer), s.Inv → fire (.read ans) s = .next t →
    ((t.blk.phase = .resp ∧ t.blk.rspStatus = 2#3) ↔
      ∃ b, ans = .byte b ∧ b.getLsbD 7 = true ∧ s.blk.cnt.toNat + 1 = maxBytes (opWidth s.blk.op)) ∧
    (t.blk.phase = .resp → t.blk.ports.srcReq = false)

/-- R110: what each encoder writes, the decoder of the same width and signedness reads back whole, from any state that
offers it. -/
def Obligations.RoundTripRecoversOperand : Prop :=
  RoundTrips .vencu32 .vdecu32 32 ∧ RoundTrips .vencu64 .vdecu64 64 ∧
  RoundTrips .vencs32 .vdecs32 32 ∧ RoundTrips .vencs64 .vdecs64 64

/-! ## Streams (20_memory.md) -/

/-- R43, R53: with `rst` low a step takes an answer from the source only in DEC, and then exactly one; it offers the
sink a byte only in ENC. -/
def Obligations.SourceIsReadOnlyByDecodes : Prop :=
  ∀ s t : State, step s = .next t → s.env.rstHigh = false →
    (s.blk.phase ≠ .dec → t.env.src = s.env.src) ∧ (s.blk.phase = .dec → t.env.src = s.env.src.tail) ∧
    (s.blk.phase ≠ .enc → t.env.snk = s.env.snk) ∧ (s.blk.phase = .enc → t.env.snk = s.env.snk.tail) ∧
    t.env.srcThen = s.env.srcThen ∧ t.env.snkThen = s.env.snkThen

/-- R42, R57, R161: no step, a Reset among them, takes a byte from the sink; a step adds at most the one byte an encode
offers, and only when the sink's answer is Ok. -/
def Obligations.SinkKeepsWhatItTook : Prop :=
  ∀ s t : State, step s = .next t →
    t.env.sink = s.env.sink ∨
    (s.blk.phase = .enc ∧ s.env.rstHigh = false ∧ t.env.sink = s.env.sink ++ [encbyte s.blk.acc] ∧
      (s.env.snk.head? = some .ok ∨ (s.env.snk = [] ∧ s.env.snkThen = some .ok)))

/-! ## Errors and completion (60_exceptions.md) -/

/-- R142, R141: which step raises which status. -/
def Obligations.StatusByKindOfStep : Prop :=
  (∀ (s t : State) c, fire (.accept c) s = .next t → t.blk.phase = .resp →
    (16 ≤ c.cmd.toNat → t.blk.rspStatus = 4#3) ∧ (c.cmd.toNat < 16 → c.cmd.toNat < 8 ∧ t.blk.rspStatus = 0#3)) ∧
  (∀ (s t : State) ans, fire (.write ans) s = .next t → t.blk.phase = .resp →
    (ans = .ioFail → t.blk.rspStatus = 3#3) ∧ (ans = .ok → t.blk.rspStatus = 0#3)) ∧
  (∀ (s t : State) ans, fire (.read ans) s = .next t → t.blk.phase = .resp →
    (ans = .endInput → t.blk.rspStatus = 1#3) ∧ (ans = .ioFail → t.blk.rspStatus = 3#3) ∧
    (∀ b, ans = .byte b → t.blk.rspStatus = if b.getLsbD 7 then 2#3 else 0#3))

/-- R143, R144: a step that ends an operation in an error writes the status, value 0, the count and PHASE, and no other
register: ACC, CNT and OP stay as they were. -/
def Obligations.ErrorEntryWritesOnlyTheResponse : Prop :=
  ∀ s t : State, step s = .next t → s.env.rstHigh = false → s.blk.phase ≠ .resp → t.blk.phase = .resp →
    t.blk.rspStatus ≠ 0#3 →
    t.blk = { s.blk with rspStatus := t.blk.rspStatus, rspValue := 0#64, rspCount := t.blk.rspCount, phase := .resp } ∧
    t.env.sink = s.env.sink

/-- R147: the Deliver step hands the response to a host that takes it, and PHASE goes to IDLE; nothing else changes. -/
def Obligations.DeliverReturnsToIdle : Prop :=
  ∀ s : State, s.Inv → s.blk.phase = .resp → s.env.rstHigh = false → s.env.rspReady = true →
    step s = .next
      { blk := { s.blk with phase := .idle }
        env := { s.env with
          taken := s.env.taken ++ [⟨s.blk.rspStatus, s.blk.rspValue, s.blk.rspCount⟩], rst := s.env.rst.tail } }

/-- I12, as the model writes it (log 12): a response with status 5 to 7 or count 11 to 15 is refused, not delivered. -/
def Obligations.ResponseNeverProducedIsRefused : Prop :=
  ∀ s : State, s.blk.phase = .resp → 5 ≤ s.blk.rspStatus.toNat ∨ 11 ≤ s.blk.rspCount.toNat →
    fire .deliver s = .refused .responseNeverProduced

/-- R31, R148: nothing the block keeps between operations is read by a later one. Two states with one environment whose
blocks agree on what their phase reads take like steps to states with one environment that agree again. -/
def Obligations.HiddenStateIsUnobservable : Prop :=
  ∀ s s' t : State, s.blk.Alike s'.blk → s.env = s'.env → step s = .next t →
    ∃ t', step s' = .next t' ∧ t.blk.Alike t'.blk ∧ t.env = t'.env

/-! ## Reset and bounded work (70_reset_and_hazards.md) -/

/-- R160, R161: a high `rst` makes the coming step Reset in any phase: every register takes its reset value, and the
streams and the offered commands stay as they were. -/
def Obligations.ResetClearsEveryRegister : Prop :=
  ∀ (s : State) (more : List Bool), s.env.rst = true :: more →
    step s = .next
      { blk := { phase := .idle, op := 0#4, acc := 0#64, cnt := 0#4, rspStatus := 0#3, rspValue := 0#64,
                 rspCount := 0#4 }
        env := { s.env with rst := more } }

/-- R162: after reset the first step the block can take, other than Reset, is an `Accept`, and any command is accepted. -/
def Obligations.FirstStepAfterResetIsAccept : Prop :=
  ∀ s : State, s.blk = Block.reset →
    (∀ e t, fire e s = .next t → e = .reset ∨ ∃ c, e = .accept c) ∧ (∀ c, ∃ t, fire (.accept c) s = .next t)

/-- R169: with an environment that answers every request, an offered command reaches its response within the bound of
its operation, counting the block's own steps. -/
def Obligations.OperationEndsWithinBound : Prop :=
  ∀ (s : State) c rest, s.Offers c rest → s.env.srcThen.isSome = true → s.env.snkThen.isSome = true →
    ∃ n t, 1 ≤ n ∧ n ≤ stepBound c ∧ runFor n s = .next t ∧ t.blk.phase = .resp

/-! ## The signal level (10_state.md R34, 30_encoding.md R72) -/

/-- R34: with its handshake's answer present, an edge is the transaction-level step; with none, nothing changes; a high
`rst` is Reset in any phase. In ENC it leaves open whether the sink took the offered byte (R161, I8; log 13): both
outcomes of the race are stated. What `src_kind` and `src_data` answer is AnswerEncodings. -/
def Obligations.EdgeCompletesOneHandshake : Prop :=
  ∀ (raced : Bool) (p : PortIn) (s : State),
    (p.rst = true → edge raced p s = .next
      { blk := Block.reset
        env := { s.env with
          sink := if raced = true ∧ s.blk.phase = .enc then s.env.sink ++ [encbyte s.blk.acc] else s.env.sink } }) ∧
    (p.rst = false →
      (s.blk.phase = .idle → edge raced p s =
        if p.cmdValid then fire (.accept ⟨p.cmdOp, p.cmdArg⟩) s else .next s) ∧
      (s.blk.phase = .enc → edge raced p s =
        if p.snkAck then fire (.write (if p.snkErr then .ioFail else .ok)) s else .next s) ∧
      (s.blk.phase = .dec → edge raced p s = if p.srcAck then fire (.read p.srcAnswer) s else .next s) ∧
      (s.blk.phase = .resp → edge raced p s = if p.rspReady then fire .deliver s else .next s))

/-- R72: the answers on `src_kind`: 0 Byte, 1 End, 2 IoFail, and 3 read as IoFail; and on `snk_err`: 0 Ok, 1 IoFail. -/
def Obligations.AnswerEncodings : Prop :=
  ∀ (raced : Bool) (p : PortIn) (s : State), p.rst = false →
    (s.blk.phase = .dec → p.srcAck = true →
      (p.srcKind = 0#2 → edge raced p s = fire (.read (.byte p.srcData)) s) ∧
      (p.srcKind = 1#2 → edge raced p s = fire (.read .endInput) s) ∧
      (p.srcKind = 2#2 → edge raced p s = fire (.read .ioFail) s) ∧
      (p.srcKind = 3#2 → edge raced p s = fire (.read .ioFail) s)) ∧
    (s.blk.phase = .enc → p.snkAck = true →
      (p.snkErr = false → edge raced p s = fire (.write .ok) s) ∧
      (p.snkErr = true → edge raced p s = fire (.write .ioFail) s))
end

