-- ==== Sys2Proof/Laws/State.lean ====
section
/-! SUPPORT. One lemma per field per update of the registers and of the environment, true by unfolding once, so that
no later proof unfolds a record update. -/

namespace Sys2Proof.Machine

open Sys2Proof

@[simp] theorem respond_phase (b : Block) (st : Status) (v : Word) (n : BitVec 4) : (b.respond st v n).phase = .resp := rfl
@[simp] theorem respond_op (b : Block) (st : Status) (v : Word) (n : BitVec 4) : (b.respond st v n).op = b.op := rfl
@[simp] theorem respond_acc (b : Block) (st : Status) (v : Word) (n : BitVec 4) : (b.respond st v n).acc = b.acc := rfl
@[simp] theorem respond_cnt (b : Block) (st : Status) (v : Word) (n : BitVec 4) : (b.respond st v n).cnt = b.cnt := rfl
@[simp] theorem respond_rspStatus (b : Block) (st : Status) (v : Word) (n : BitVec 4) : (b.respond st v n).rspStatus = st.code := rfl
@[simp] theorem respond_rspValue (b : Block) (st : Status) (v : Word) (n : BitVec 4) : (b.respond st v n).rspValue = v := rfl
@[simp] theorem respond_rspCount (b : Block) (st : Status) (v : Word) (n : BitVec 4) : (b.respond st v n).rspCount = n := rfl

@[simp] theorem raise_phase (b : Block) (e : Err) (n : BitVec 4) : (b.raise e n).phase = .resp := rfl
@[simp] theorem raise_op (b : Block) (e : Err) (n : BitVec 4) : (b.raise e n).op = b.op := rfl
@[simp] theorem raise_acc (b : Block) (e : Err) (n : BitVec 4) : (b.raise e n).acc = b.acc := rfl
@[simp] theorem raise_cnt (b : Block) (e : Err) (n : BitVec 4) : (b.raise e n).cnt = b.cnt := rfl
@[simp] theorem raise_rspStatus (b : Block) (e : Err) (n : BitVec 4) : (b.raise e n).rspStatus = Status.code (.err e) := rfl
@[simp] theorem raise_rspValue (b : Block) (e : Err) (n : BitVec 4) : (b.raise e n).rspValue = 0#64 := rfl
@[simp] theorem raise_rspCount (b : Block) (e : Err) (n : BitVec 4) : (b.raise e n).rspCount = n := rfl

@[simp] theorem zigzagDone_phase (code : BitVec 4) (r : Word) (b : Block) : (zigzagDone code r b).phase = .resp := rfl
@[simp] theorem zigzagDone_op (code : BitVec 4) (r : Word) (b : Block) : (zigzagDone code r b).op = code := rfl
@[simp] theorem zigzagDone_acc (code : BitVec 4) (r : Word) (b : Block) : (zigzagDone code r b).acc = b.acc := rfl
@[simp] theorem zigzagDone_cnt (code : BitVec 4) (r : Word) (b : Block) : (zigzagDone code r b).cnt = b.cnt := rfl
@[simp] theorem zigzagDone_rspStatus (code : BitVec 4) (r : Word) (b : Block) : (zigzagDone code r b).rspStatus = 0#3 := rfl
@[simp] theorem zigzagDone_rspValue (code : BitVec 4) (r : Word) (b : Block) : (zigzagDone code r b).rspValue = r := rfl
@[simp] theorem zigzagDone_rspCount (code : BitVec 4) (r : Word) (b : Block) : (zigzagDone code r b).rspCount = 0#4 := rfl

@[simp] theorem startEncode_phase (code : BitVec 4) (v : Word) (b : Block) : (startEncode code v b).phase = .enc := rfl
@[simp] theorem startEncode_op (code : BitVec 4) (v : Word) (b : Block) : (startEncode code v b).op = code := rfl
@[simp] theorem startEncode_acc (code : BitVec 4) (v : Word) (b : Block) : (startEncode code v b).acc = v := rfl
@[simp] theorem startEncode_cnt (code : BitVec 4) (v : Word) (b : Block) : (startEncode code v b).cnt = 0#4 := rfl
@[simp] theorem startEncode_rspStatus (code : BitVec 4) (v : Word) (b : Block) : (startEncode code v b).rspStatus = b.rspStatus := rfl
@[simp] theorem startEncode_rspValue (code : BitVec 4) (v : Word) (b : Block) : (startEncode code v b).rspValue = b.rspValue := rfl
@[simp] theorem startEncode_rspCount (code : BitVec 4) (v : Word) (b : Block) : (startEncode code v b).rspCount = b.rspCount := rfl

@[simp] theorem startDecode_phase (code : BitVec 4) (b : Block) : (startDecode code b).phase = .dec := rfl
@[simp] theorem startDecode_op (code : BitVec 4) (b : Block) : (startDecode code b).op = code := rfl
@[simp] theorem startDecode_acc (code : BitVec 4) (b : Block) : (startDecode code b).acc = 0#64 := rfl
@[simp] theorem startDecode_cnt (code : BitVec 4) (b : Block) : (startDecode code b).cnt = 0#4 := rfl
@[simp] theorem startDecode_rspStatus (code : BitVec 4) (b : Block) : (startDecode code b).rspStatus = b.rspStatus := rfl
@[simp] theorem startDecode_rspValue (code : BitVec 4) (b : Block) : (startDecode code b).rspValue = b.rspValue := rfl
@[simp] theorem startDecode_rspCount (code : BitVec 4) (b : Block) : (startDecode code b).rspCount = b.rspCount := rfl

@[simp] theorem reset_phase  : Block.reset.phase = Phase.idle := rfl
@[simp] theorem reset_op  : Block.reset.op = 0#4 := rfl
@[simp] theorem reset_acc  : Block.reset.acc = 0#64 := rfl
@[simp] theorem reset_cnt  : Block.reset.cnt = 0#4 := rfl
@[simp] theorem reset_rspStatus  : Block.reset.rspStatus = 0#3 := rfl
@[simp] theorem reset_rspValue  : Block.reset.rspValue = 0#64 := rfl
@[simp] theorem reset_rspCount  : Block.reset.rspCount = 0#4 := rfl

@[simp] theorem withBlk_blk (s : State) (b : Block) : (s.withBlk b).blk = b := rfl
@[simp] theorem withBlk_env (s : State) (b : Block) : (s.withBlk b).env = s.env := rfl
@[simp] theorem withBlk_withBlk (s : State) (b c : Block) : (s.withBlk b).withBlk c = s.withBlk c := rfl
@[simp] theorem resetBlock_blk (s : State) : (resetBlock s).blk = Block.reset := rfl
@[simp] theorem resetBlock_env (s : State) : (resetBlock s).env = s.env := rfl

@[simp] theorem pushSink_blk (s : State) (x : Byte) : (s.pushSink x).blk = s.blk := rfl
@[simp] theorem pushSink_cmds (s : State) (x : Byte) : (s.pushSink x).env.cmds = s.env.cmds := rfl
@[simp] theorem pushSink_rspReady (s : State) (x : Byte) : (s.pushSink x).env.rspReady = s.env.rspReady := rfl
@[simp] theorem pushSink_src (s : State) (x : Byte) : (s.pushSink x).env.src = s.env.src := rfl
@[simp] theorem pushSink_srcThen (s : State) (x : Byte) : (s.pushSink x).env.srcThen = s.env.srcThen := rfl
@[simp] theorem pushSink_snk (s : State) (x : Byte) : (s.pushSink x).env.snk = s.env.snk := rfl
@[simp] theorem pushSink_snkThen (s : State) (x : Byte) : (s.pushSink x).env.snkThen = s.env.snkThen := rfl
@[simp] theorem pushSink_sink (s : State) (x : Byte) : (s.pushSink x).env.sink = s.env.sink ++ [x] := rfl
@[simp] theorem pushSink_taken (s : State) (x : Byte) : (s.pushSink x).env.taken = s.env.taken := rfl
@[simp] theorem pushSink_rst (s : State) (x : Byte) : (s.pushSink x).env.rst = s.env.rst := rfl

@[simp] theorem passRst_cmds (v : Env) : v.passRst.cmds = v.cmds := rfl
@[simp] theorem passRst_rspReady (v : Env) : v.passRst.rspReady = v.rspReady := rfl
@[simp] theorem passRst_src (v : Env) : v.passRst.src = v.src := rfl
@[simp] theorem passRst_srcThen (v : Env) : v.passRst.srcThen = v.srcThen := rfl
@[simp] theorem passRst_snk (v : Env) : v.passRst.snk = v.snk := rfl
@[simp] theorem passRst_snkThen (v : Env) : v.passRst.snkThen = v.snkThen := rfl
@[simp] theorem passRst_sink (v : Env) : v.passRst.sink = v.sink := rfl
@[simp] theorem passRst_taken (v : Env) : v.passRst.taken = v.taken := rfl
@[simp] theorem passRst_rst (v : Env) : v.passRst.rst = v.rst.tail := rfl

@[simp] theorem offerFirst_cmds (c : Command) (s : State) : (s.offerFirst c).env.cmds = c :: s.env.cmds := rfl
@[simp] theorem offerFirst_phase (c : Command) (s : State) : (s.offerFirst c).blk.phase = Phase.idle := rfl
@[simp] theorem offerFirst_op (c : Command) (s : State) : (s.offerFirst c).blk.op = s.blk.op := rfl
@[simp] theorem offerFirst_acc (c : Command) (s : State) : (s.offerFirst c).blk.acc = s.blk.acc := rfl
@[simp] theorem offerFirst_cnt (c : Command) (s : State) : (s.offerFirst c).blk.cnt = s.blk.cnt := rfl
@[simp] theorem offerFirst_rspStatus (c : Command) (s : State) : (s.offerFirst c).blk.rspStatus = s.blk.rspStatus := rfl
@[simp] theorem offerFirst_rspValue (c : Command) (s : State) : (s.offerFirst c).blk.rspValue = s.blk.rspValue := rfl
@[simp] theorem offerFirst_rspCount (c : Command) (s : State) : (s.offerFirst c).blk.rspCount = s.blk.rspCount := rfl
@[simp] theorem offerFirst_rspReady (c : Command) (s : State) : (s.offerFirst c).env.rspReady = s.env.rspReady := rfl
@[simp] theorem offerFirst_src (c : Command) (s : State) : (s.offerFirst c).env.src = s.env.src := rfl
@[simp] theorem offerFirst_srcThen (c : Command) (s : State) : (s.offerFirst c).env.srcThen = s.env.srcThen := rfl
@[simp] theorem offerFirst_snk (c : Command) (s : State) : (s.offerFirst c).env.snk = s.env.snk := rfl
@[simp] theorem offerFirst_snkThen (c : Command) (s : State) : (s.offerFirst c).env.snkThen = s.env.snkThen := rfl
@[simp] theorem offerFirst_sink (c : Command) (s : State) : (s.offerFirst c).env.sink = s.env.sink := rfl
@[simp] theorem offerFirst_taken (c : Command) (s : State) : (s.offerFirst c).env.taken = s.env.taken := rfl

@[simp] theorem response_status (b : Block) : b.response.status = b.rspStatus := rfl
@[simp] theorem response_value (b : Block) : b.response.value = b.rspValue := rfl
@[simp] theorem response_count (b : Block) : b.response.count = b.rspCount := rfl

end Sys2Proof.Machine
end

