-- ==== Sys2Proof/Laws/Ops.lean ====
section
/-! SUPPORT. What each shared operation can do, said once: an `Accept` step, the `Write`, `Read` and `Deliver` steps, the
effect of every instruction, and the coming step. -/

namespace Sys2Proof.Machine

open Sys2Proof

/-- In IDLE an `Accept` step has its effect on the registers and no other. -/
theorem acceptStep_of_idle {f : Block → Block} {s : State} (h : s.blk.phase = .idle) :
    acceptStep f s = .next (s.withBlk (f s.blk)) := by
  unfold acceptStep; rw [h]

/-- Outside IDLE no `Accept` step is enabled. -/
theorem acceptStep_of_busy {f : Block → Block} {s : State} (h : s.blk.phase ≠ .idle) :
    acceptStep f s = .fault .acceptWhileBusy := by
  unfold acceptStep; cases hp : s.blk.phase <;> simp_all

theorem acceptStep_next {f : Block → Block} {s t : State} (h : acceptStep f s = .next t) :
    s.blk.phase = .idle ∧ t = s.withBlk (f s.blk) := by
  by_cases hp : s.blk.phase = .idle
  · rw [acceptStep_of_idle hp] at h; cases h; exact ⟨hp, rfl⟩
  · rw [acceptStep_of_busy hp] at h; cases h

/-- The effect of an operation's `Accept` step on the registers (R92, R103, R120). -/
def acceptEffect : Instr → Block → Block
  | .zzenc8 a => zigzagDone 0x0#4 (resultWord (zzEnc 8 (operand 8 a)))
  | .zzenc16 a => zigzagDone 0x1#4 (resultWord (zzEnc 16 (operand 16 a)))
  | .zzenc32 a => zigzagDone 0x2#4 (resultWord (zzEnc 32 (operand 32 a)))
  | .zzenc64 a => zigzagDone 0x3#4 (resultWord (zzEnc 64 (operand 64 a)))
  | .zzdec8 a => zigzagDone 0x4#4 (resultWord (zzDec 8 (operand 8 a)))
  | .zzdec16 a => zigzagDone 0x5#4 (resultWord (zzDec 16 (operand 16 a)))
  | .zzdec32 a => zigzagDone 0x6#4 (resultWord (zzDec 32 (operand 32 a)))
  | .zzdec64 a => zigzagDone 0x7#4 (resultWord (zzDec 64 (operand 64 a)))
  | .vencu32 a => startEncode 0x8#4 (resultWord (operand 32 a))
  | .vencu64 a => startEncode 0x9#4 (resultWord (operand 64 a))
  | .vencs32 a => startEncode 0xA#4 (resultWord (zzEnc 32 (operand 32 a)))
  | .vencs64 a => startEncode 0xB#4 (resultWord (zzEnc 64 (operand 64 a)))
  | .vdecu32 => startDecode 0xC#4
  | .vdecu64 => startDecode 0xD#4
  | .vdecs32 => startDecode 0xE#4
  | .vdecs64 => startDecode 0xF#4

/-- Every instruction is an `Accept` step with its effect. -/
theorem exec_eq (i : Instr) (s : State) : exec i s = acceptStep (acceptEffect i) s := by
  cases i <;> rfl

/-- The effect of any command's `Accept` step on the registers (R63). -/
def commandEffect (c : Command) (b : Block) : Block :=
  match decode c with
  | .ok i => acceptEffect i b
  | .error _ => b.raise .illegalCommand 0#4

/-- Accepting any command, legal or not, is an `Accept` step with its effect. -/
theorem acceptCommand_eq (c : Command) (s : State) : acceptCommand c s = acceptStep (commandEffect c) s := by
  cases hd : decode c with
  | ok i =>
    have hf : commandEffect c = acceptEffect i := by funext b; rw [commandEffect, hd]
    rw [acceptCommand, hd, hf]; exact exec_eq i s
  | error e =>
    have hf : commandEffect c = fun b => b.raise .illegalCommand 0#4 := by funext b; rw [commandEffect, hd]
    rw [acceptCommand, hd, hf]

/-- No operation is a no-op: its `Accept` step leaves IDLE (R66). -/
theorem acceptEffect_phase (i : Instr) (b : Block) : (acceptEffect i b).phase ≠ .idle := by
  cases i <;> simp [acceptEffect]

@[simp] theorem fire_accept (c : Command) (s : State) : fire (.accept c) s = acceptStep (commandEffect c) s :=
  acceptCommand_eq c s

@[simp] theorem fire_write (a : SnkAnswer) (s : State) : fire (.write a) s = writeStep a s := rfl

@[simp] theorem fire_read (a : SrcAnswer) (s : State) : fire (.read a) s = readStep a s := rfl

@[simp] theorem fire_deliver (s : State) : fire .deliver s = deliver s := rfl

@[simp] theorem fire_reset (s : State) : fire .reset s = .next (resetBlock s) := rfl

/-- What an `Accept` step can do: run a legal command's effect, or respond IllegalCommand. -/
theorem acceptCommand_next {c : Command} {s t : State} (h : acceptCommand c s = .next t) :
    s.blk.phase = .idle ∧
      ((∃ i, decode c = .ok i ∧ t = s.withBlk (acceptEffect i s.blk)) ∨
        ((∃ e, decode c = .error e) ∧ t = s.withBlk (s.blk.raise .illegalCommand 0#4))) := by
  unfold acceptCommand at h
  cases hd : decode c with
  | ok i =>
    rw [hd] at h; simp only [exec_eq] at h
    obtain ⟨hp, rfl⟩ := acceptStep_next h
    exact ⟨hp, .inl ⟨i, rfl, rfl⟩⟩
  | error e =>
    rw [hd] at h
    obtain ⟨hp, rfl⟩ := acceptStep_next h
    exact ⟨hp, .inr ⟨⟨e, rfl⟩, rfl⟩⟩

theorem writeStep_of_enc {ans : SnkAnswer} {s : State} (h : s.blk.phase = .enc) :
    writeStep ans s = .next (match ans with
      | .ioFail => s.withBlk (s.blk.raise .ioFailure s.blk.cnt)
      | .ok => (s.pushSink (encbyte s.blk.acc)).withBlk (encAdvance s.blk)) := by
  unfold writeStep; rw [h]; cases ans <;> rfl

/-- What a `Write` step can do (R100). -/
theorem writeStep_next {ans : SnkAnswer} {s t : State} (h : writeStep ans s = .next t) :
    s.blk.phase = .enc ∧
      ((ans = .ioFail ∧ t = s.withBlk (s.blk.raise .ioFailure s.blk.cnt)) ∨
        (ans = .ok ∧ t = (s.pushSink (encbyte s.blk.acc)).withBlk (encAdvance s.blk))) := by
  by_cases hp : s.blk.phase = .enc
  · rw [writeStep_of_enc hp] at h
    cases ans <;> cases h
    · exact ⟨hp, .inr ⟨rfl, rfl⟩⟩
    · exact ⟨hp, .inl ⟨rfl, rfl⟩⟩
  · unfold writeStep at h; cases hq : s.blk.phase <;> simp_all

/-- What a byte answered Ok does to the registers (R100). -/
theorem encAdvance_cases (b : Block) :
    (restOf b.acc = 0#64 ∧ encAdvance b = b.respond .ok 0#64 (b.cnt + 1#4)) ∨
      (restOf b.acc ≠ 0#64 ∧ encAdvance b = { b with acc := restOf b.acc, cnt := b.cnt + 1#4 }) := by
  by_cases h : restOf b.acc = 0#64
  · exact .inl ⟨h, by simp [encAdvance, h]⟩
  · exact .inr ⟨h, by simp [encAdvance, h]⟩

theorem readStep_of_dec {ans : SrcAnswer} {s : State} (h : s.blk.phase = .dec) :
    readStep ans s = .next (s.withBlk (match ans with
      | .endInput => s.blk.raise .endOfInput s.blk.cnt
      | .ioFail => s.blk.raise .ioFailure s.blk.cnt
      | .byte x => decAdvance (varintWidth s.blk.op) x s.blk)) := by
  unfold readStep; rw [h]; cases ans <;> rfl

/-- What a `Read` step can do (R121). -/
theorem readStep_next {ans : SrcAnswer} {s t : State} (h : readStep ans s = .next t) :
    s.blk.phase = .dec ∧
      ((ans = .endInput ∧ t = s.withBlk (s.blk.raise .endOfInput s.blk.cnt)) ∨
        (ans = .ioFail ∧ t = s.withBlk (s.blk.raise .ioFailure s.blk.cnt)) ∨
        (∃ x, ans = .byte x ∧ t = s.withBlk (decAdvance (varintWidth s.blk.op) x s.blk))) := by
  by_cases hp : s.blk.phase = .dec
  · rw [readStep_of_dec hp] at h
    cases ans <;> cases h
    · exact ⟨hp, .inr (.inr ⟨_, rfl, rfl⟩)⟩
    · exact ⟨hp, .inl ⟨rfl, rfl⟩⟩
    · exact ⟨hp, .inr (.inl ⟨rfl, rfl⟩)⟩
  · unfold readStep at h; cases hq : s.blk.phase <;> simp_all

/-- What a byte from the source does to the registers of a decode (R121). -/
theorem decAdvance_cases (w : Nat) (x : Byte) (b : Block) :
    (contFlag x = false ∧ decAdvance w x b =
        b.respond .ok (resultWord (decResult w b.op (decAccumulate w x b))) (b.cnt + 1#4)) ∨
      (contFlag x = true ∧ (b.cnt + 1#4).toNat = maxBytes w ∧ decAdvance w x b = b.raise .overflow (b.cnt + 1#4)) ∨
      (contFlag x = true ∧ (b.cnt + 1#4).toNat ≠ maxBytes w ∧
        decAdvance w x b = { b with acc := resultWord (decAccumulate w x b), cnt := b.cnt + 1#4 }) := by
  cases hc : contFlag x
  · exact .inl ⟨rfl, by simp [decAdvance, hc]⟩
  · by_cases hm : (b.cnt + 1#4).toNat = maxBytes w
    · exact .inr (.inl ⟨rfl, hm, by simp only [decAdvance, hc, if_pos hm]; simp⟩)
    · exact .inr (.inr ⟨rfl, hm, by simp only [decAdvance, hc, if_neg hm]; simp⟩)

/-- The state after a `Deliver` step (R147). -/
def delivered (s : State) : State :=
  { blk := { s.blk with phase := .idle }, env := { s.env with taken := s.env.taken ++ [s.blk.response] } }

theorem deliver_of_resp {s : State} (h : s.blk.phase = .resp) (hr : s.blk.response.produced = true) :
    deliver s = .next (delivered s) := by
  unfold deliver; rw [h]; simp [hr, delivered]

/-- What a `Deliver` step can do (R147). -/
theorem deliver_next {s t : State} (h : deliver s = .next t) :
    s.blk.phase = .resp ∧ s.blk.response.produced = true ∧ t = delivered s := by
  unfold deliver at h
  cases hp : s.blk.phase <;> rw [hp] at h <;> simp at h
  by_cases hr : s.blk.response.produced = true
  · rw [if_pos hr] at h; cases h; exact ⟨rfl, hr, rfl⟩
  · rw [if_neg hr] at h; cases h

theorem response_produced_iff (b : Block) :
    b.response.produced = true ↔ b.rspStatus.toNat ≤ 4 ∧ b.rspCount.toNat ≤ 10 := by
  unfold Response.produced
  rw [Bool.and_eq_true, decide_eq_true_iff, decide_eq_true_iff]
  exact Iff.rfl

/-- The environment a source answer is taken from keeps everything but the source. -/
theorem nextSrc_eq_some {v v' : Env} {a : SrcAnswer} (h : v.nextSrc = some (a, v')) :
    (v.src = a :: v'.src ∧ v' = { v with src := v'.src }) ∨ (v.src = [] ∧ v.srcThen = some a ∧ v' = v) := by
  unfold Env.nextSrc at h
  cases hs : v.src with
  | cons x rest => rw [hs] at h; simp at h; obtain ⟨rfl, rfl⟩ := h; simp
  | nil =>
    rw [hs] at h
    cases ht : v.srcThen with
    | none => rw [ht] at h; simp at h
    | some y => rw [ht] at h; simp at h; obtain ⟨rfl, rfl⟩ := h; simp

/-- The environment a sink answer is taken from keeps everything but the sink's answers. -/
theorem nextSnk_eq_some {v v' : Env} {a : SnkAnswer} (h : v.nextSnk = some (a, v')) :
    (v.snk = a :: v'.snk ∧ v' = { v with snk := v'.snk }) ∨ (v.snk = [] ∧ v.snkThen = some a ∧ v' = v) := by
  unfold Env.nextSnk at h
  cases hs : v.snk with
  | cons x rest => rw [hs] at h; simp at h; obtain ⟨rfl, rfl⟩ := h; simp
  | nil =>
    rw [hs] at h
    cases ht : v.snkThen with
    | none => rw [ht] at h; simp at h
    | some y => rw [ht] at h; simp at h; obtain ⟨rfl, rfl⟩ := h; simp

/-- The environment a command is taken from keeps everything but the command port. -/
theorem nextCmd_eq_some {v v' : Env} {c : Command} (h : v.nextCmd = some (c, v')) :
    v.cmds = c :: v'.cmds ∧ v' = { v with cmds := v'.cmds } := by
  unfold Env.nextCmd at h
  cases hs : v.cmds with
  | cons x rest => rw [hs] at h; simp at h; obtain ⟨rfl, rfl⟩ := h; simp
  | nil => rw [hs] at h; simp at h

/-- Everything a step can do (R21): one of the five kinds of step, each in its phase, chosen by the environment. -/
theorem step_next {s t : State} (h : step s = .next t) :
    (s.env.rstHigh = true ∧ t = { blk := Block.reset, env := s.env.passRst }) ∨
    (s.env.rstHigh = false ∧ s.blk.phase = .idle ∧ ∃ c v, s.env.passRst.nextCmd = some (c, v) ∧
      ((∃ i, decode c = .ok i ∧ t = { blk := acceptEffect i s.blk, env := v }) ∨
        ((∃ e, decode c = .error e) ∧ t = { blk := s.blk.raise .illegalCommand 0#4, env := v }))) ∨
    (s.env.rstHigh = false ∧ s.blk.phase = .enc ∧ ∃ a v, s.env.passRst.nextSnk = some (a, v) ∧
      ((a = .ioFail ∧ t = { blk := s.blk.raise .ioFailure s.blk.cnt, env := v }) ∨
        (a = .ok ∧ t = { blk := encAdvance s.blk, env := { v with sink := v.sink ++ [encbyte s.blk.acc] } }))) ∨
    (s.env.rstHigh = false ∧ s.blk.phase = .dec ∧ ∃ a v, s.env.passRst.nextSrc = some (a, v) ∧
      ((a = .endInput ∧ t = { blk := s.blk.raise .endOfInput s.blk.cnt, env := v }) ∨
        (a = .ioFail ∧ t = { blk := s.blk.raise .ioFailure s.blk.cnt, env := v }) ∨
        (∃ x, a = .byte x ∧ t = { blk := decAdvance (varintWidth s.blk.op) x s.blk, env := v }))) ∨
    (s.env.rstHigh = false ∧ s.blk.phase = .resp ∧ s.env.rspReady = true ∧ s.blk.response.produced = true ∧
      t = delivered { s with env := s.env.passRst }) := by
  unfold step takeOffer State.offer at h
  cases hr : s.env.rstHigh
  · rw [hr] at h
    cases hp : s.blk.phase <;> rw [hp] at h <;> simp only [Bool.false_eq_true, if_false] at h
    · cases hn : s.env.passRst.nextCmd with
      | none => rw [hn] at h; cases h
      | some cv =>
        obtain ⟨c, v⟩ := cv
        rw [hn] at h
        obtain ⟨-, ⟨i, hd, rfl⟩ | ⟨he, rfl⟩⟩ := acceptCommand_next h
        · exact .inr (.inl ⟨rfl, rfl, c, v, rfl, .inl ⟨i, hd, rfl⟩⟩)
        · exact .inr (.inl ⟨rfl, rfl, c, v, rfl, .inr ⟨he, rfl⟩⟩)
    · cases hn : s.env.passRst.nextSnk with
      | none => rw [hn] at h; cases h
      | some av =>
        obtain ⟨a, v⟩ := av
        rw [hn] at h
        obtain ⟨-, ⟨ha, rfl⟩ | ⟨ha, rfl⟩⟩ := writeStep_next h
        · exact .inr (.inr (.inl ⟨rfl, rfl, a, v, rfl, .inl ⟨ha, rfl⟩⟩))
        · exact .inr (.inr (.inl ⟨rfl, rfl, a, v, rfl, .inr ⟨ha, rfl⟩⟩))
    · cases hn : s.env.passRst.nextSrc with
      | none => rw [hn] at h; cases h
      | some av =>
        obtain ⟨a, v⟩ := av
        rw [hn] at h
        obtain ⟨-, ⟨ha, rfl⟩ | ⟨ha, rfl⟩ | ⟨x, ha, rfl⟩⟩ := readStep_next h
        · exact .inr (.inr (.inr (.inl ⟨rfl, rfl, a, v, rfl, .inl ⟨ha, rfl⟩⟩)))
        · exact .inr (.inr (.inr (.inl ⟨rfl, rfl, a, v, rfl, .inr (.inl ⟨ha, rfl⟩)⟩)))
        · exact .inr (.inr (.inr (.inl ⟨rfl, rfl, a, v, rfl, .inr (.inr ⟨x, ha, rfl⟩)⟩)))
    · cases hready : s.env.rspReady <;> rw [hready] at h <;> simp only [Bool.false_eq_true, if_false, if_true] at h
      · cases h
      · obtain ⟨-, hprod, rfl⟩ := deliver_next h
        exact .inr (.inr (.inr (.inr ⟨rfl, rfl, rfl, hprod, rfl⟩)))
  · rw [hr] at h; cases h; exact .inl ⟨rfl, rfl⟩

/-- In IDLE with `rst` low, the step accepts the command on the port. -/
theorem step_of_idle {s : State} {c : Command} {rest : List Command} (hp : s.blk.phase = .idle)
    (hr : s.env.rstHigh = false) (hc : s.env.cmds = c :: rest) :
    step s = acceptCommand c { s with env := { s.env with cmds := rest, rst := s.env.rst.tail } } := by
  unfold step takeOffer State.offer
  rw [hr, hp]
  simp only [Bool.false_eq_true, if_false, Env.passRst, Env.nextCmd, hc, fire]

end Sys2Proof.Machine
end

