-- ==== Sys2Proof/Laws/Arith.lean ====
section
/-! SUPPORT. The varint byte, the accumulator and the counter read as numbers: what every arithmetic argument about the
encoder and the decoder cites. -/

namespace Sys2Proof.Machine

open Sys2Proof

@[simp] theorem maxBytes_32 : maxBytes 32 = 5 := rfl

@[simp] theorem maxBytes_64 : maxBytes 64 = 10 := rfl

/-- A varint operation is 32 or 64 bits wide (R61). -/
theorem varintWidth_cases (op : BitVec 4) :
    (op.getLsbD 0 = false ∧ varintWidth op = 32) ∨ (op.getLsbD 0 = true ∧ varintWidth op = 64) := by
  cases h : op.getLsbD 0
  · exact .inl ⟨rfl, by unfold varintWidth; rw [h]; rfl⟩
  · exact .inr ⟨rfl, by unfold varintWidth; rw [h]; rfl⟩

theorem opWidth_of_varint {op : BitVec 4} (h : isVarint op = true) : opWidth op = varintWidth op := by
  unfold opWidth; rw [h]; rfl

theorem opWidth_le (op : BitVec 4) : opWidth op ≤ 64 := by
  revert op; decide

theorem restOf_toNat (x : Word) : (restOf x).toNat = x.toNat / 2 ^ 7 := by
  simp [restOf, Config.groupBits, BitVec.toNat_ushiftRight, Nat.shiftRight_eq_div_pow]

theorem restOf_eq_zero_iff (x : Word) : restOf x = 0#64 ↔ x.toNat < 2 ^ 7 := by
  rw [← BitVec.toNat_inj, restOf_toNat]
  simp only [BitVec.toNat_ofNat, Nat.zero_mod]
  omega

theorem payload_toNat (b : Byte) : (payload b).toNat = b.toNat % 2 ^ 7 := by
  simp [payload, BitVec.extractLsb'_toNat]

/-- The continuation flag of a byte as a comparison (R69). -/
theorem contFlag_eq (b : Byte) : contFlag b = decide (2 ^ 7 ≤ b.toNat) := by
  revert b; unfold contFlag; decide

/-- The offered byte as a number (R102). -/
theorem encbyte_toNat (x : Word) :
    (encbyte x).toNat = x.toNat % 2 ^ 7 + (if x.toNat < 2 ^ 7 then 0 else 2 ^ 7) := by
  have hlow : ((x.extractLsb' 0 7).setWidth 8 : Byte).toNat = x.toNat % 2 ^ 7 := by
    simp [BitVec.extractLsb'_toNat]; omega
  have hlt : x.toNat % 2 ^ 7 < 2 ^ 7 := Nat.mod_lt _ (by decide)
  unfold encbyte
  rw [BitVec.toNat_or, hlow]
  by_cases h : x.toNat < 2 ^ 7
  · rw [if_pos h, if_neg (by rw [Classical.not_not]; exact (restOf_eq_zero_iff x).2 h)]
    simp
  · rw [if_neg h, if_pos (by rw [Ne, restOf_eq_zero_iff]; exact h)]
    have h128 : (0x80#8 : Byte).toNat = 2 ^ 7 * 1 := rfl
    rw [h128, Nat.or_comm, ← Nat.two_pow_add_eq_or_of_lt hlt]
    omega

theorem contFlag_encbyte (x : Word) : contFlag (encbyte x) = decide (2 ^ 7 ≤ x.toNat) := by
  rw [contFlag_eq, encbyte_toNat]
  have hlt : x.toNat % 2 ^ 7 < 2 ^ 7 := Nat.mod_lt _ (by decide)
  split <;> rw [decide_eq_decide] <;> omega

theorem payload_encbyte (x : Word) : (payload (encbyte x)).toNat = x.toNat % 2 ^ 7 := by
  rw [payload_toNat, encbyte_toNat]
  split <;> omega

theorem operand_toNat (w : Nat) (arg : Word) : (operand w arg).toNat = arg.toNat % 2 ^ w := by
  simp [operand]

theorem resultWord_toNat {w : Nat} (hw : w ≤ 64) (r : BitVec w) : (resultWord r).toNat = r.toNat := by
  have h1 : r.toNat < 2 ^ w := r.isLt
  have h2 : 2 ^ w ≤ 2 ^ 64 := Nat.pow_le_pow_right (by decide) hw
  simp only [resultWord, BitVec.toNat_setWidth]
  exact Nat.mod_eq_of_lt (by omega)

theorem shiftLeftW_of_lt {w n : Nat} (a : BitVec w) (h : n < w) : shiftLeftW a n = a <<< n := by
  simp [shiftLeftW, h]

/-- A count below 15 steps by one without wrapping (R9, R25). -/
theorem cnt_succ_toNat {c : BitVec 4} (h : c.toNat < 15) : (c + 1#4).toNat = c.toNat + 1 := by
  rw [BitVec.toNat_add]; simp; omega

/-- Within the width, the partial result with one more group is the sum, truncated to the width (R121, R129). -/
theorem decAccumulate_toNat {w : Nat} {b : Block} (x : Byte) (hw : w ≤ 64) (h7 : 7 ≤ w)
    (hn : 7 * b.cnt.toNat < w) (ha : b.acc.toNat < 2 ^ (7 * b.cnt.toNat)) :
    (decAccumulate w x b).toNat = (b.acc.toNat + (x.toNat % 2 ^ 7) * 2 ^ (7 * b.cnt.toNat)) % 2 ^ w := by
  have hpw : 2 ^ (7 * b.cnt.toNat) ≤ 2 ^ w := Nat.pow_le_pow_right (by decide) (by omega)
  have h7w : 2 ^ 7 ≤ 2 ^ w := Nat.pow_le_pow_right (by decide) h7
  have hx : x.toNat % 2 ^ 7 < 2 ^ 7 := Nat.mod_lt _ (by decide)
  unfold decAccumulate
  rw [shiftLeftW_of_lt _ (by simpa [Config.groupBits] using hn), BitVec.toNat_or, operand_toNat,
    BitVec.toNat_shiftLeft, BitVec.toNat_setWidth, payload_toNat, Nat.shiftLeft_eq]
  rw [Nat.mod_eq_of_lt (show b.acc.toNat < 2 ^ w by omega), Nat.mod_eq_of_lt (show x.toNat % 2 ^ 7 < 2 ^ w by omega)]
  simp only [Config.groupBits]
  set p := x.toNat % 2 ^ 7
  set k := 7 * b.cnt.toNat
  obtain ⟨d, rfl⟩ : ∃ d, w = k + d := ⟨w - k, by omega⟩
  have hmod : p * 2 ^ k % 2 ^ (k + d) = 2 ^ k * (p % 2 ^ d) := by
    rw [pow_add, mul_comm p, Nat.mul_mod_mul_left]
  rw [hmod, Nat.or_comm, ← Nat.two_pow_add_eq_or_of_lt ha]
  have hlt : 2 ^ k * (p % 2 ^ d) + b.acc.toNat < 2 ^ (k + d) := by
    have : p % 2 ^ d + 1 ≤ 2 ^ d := Nat.mod_lt _ (by positivity)
    calc 2 ^ k * (p % 2 ^ d) + b.acc.toNat < 2 ^ k * (p % 2 ^ d) + 2 ^ k := by omega
      _ = 2 ^ k * (p % 2 ^ d + 1) := by ring
      _ ≤ 2 ^ k * 2 ^ d := Nat.mul_le_mul_left _ this
      _ = 2 ^ (k + d) := by rw [pow_add]
  rw [← Nat.add_mod_mod, hmod, add_comm b.acc.toNat, Nat.mod_eq_of_lt hlt]

end Sys2Proof.Machine
end

