-- ==== Sys2Proof/Laws/Decode.lean ====
section
/-! SUPPORT. The decoder's fields and which commands it accepts. -/

namespace Sys2Proof

/-- A command byte is its reserved field over its operation code (R60). -/
theorem cmd_toNat (cmd : Byte) : cmd.toNat = 16 * (rsvField cmd).toNat + (opField cmd).toNat := by
  revert cmd; decide

theorem rsvField_eq_zero_iff (cmd : Byte) : rsvField cmd = 0#4 ↔ cmd.toNat < 16 := by
  revert cmd; decide

theorem decode_of_legal {c : Command} (h : c.cmd.toNat < 16) : decode c = .ok (decodeOp (opField c.cmd) c.arg) := by
  unfold decode; rw [if_pos ((rsvField_eq_zero_iff c.cmd).2 h)]

theorem decode_of_reserved {c : Command} (h : 16 ≤ c.cmd.toNat) :
    decode c = .error (.reservedBitsSet (rsvField c.cmd)) := by
  unfold decode; rw [if_neg]; rw [rsvField_eq_zero_iff]; omega

/-- What the decoder accepts, and what it then gives (R63). -/
theorem decode_eq_ok {c : Command} {i : Instr} (h : decode c = .ok i) :
    c.cmd.toNat < 16 ∧ i = decodeOp (opField c.cmd) c.arg := by
  by_cases hc : c.cmd.toNat < 16
  · rw [decode_of_legal hc] at h; cases h; exact ⟨hc, rfl⟩
  · rw [decode_of_reserved (by omega)] at h; cases h

theorem decode_eq_error {c : Command} {e : DecodeError} (h : decode c = .error e) : 16 ≤ c.cmd.toNat := by
  by_contra hc
  rw [decode_of_legal (by omega)] at h; cases h

/-- The operation an operation code selects has that code (R62). -/
theorem opField_cmdByte_decodeOp (op : BitVec 4) (arg : Word) : (decodeOp op arg).cmdByte = op.setWidth 8 := by
  have key : ∀ o : BitVec 4, (decodeOp o 0#64).cmdByte = o.setWidth 8 := by decide
  rw [← key op]
  unfold decodeOp
  split <;> rfl

/-- An accepted command writes its own operation code to OP (R23, R63). -/
theorem acceptEffect_op {c : Command} {i : Instr} (h : decode c = .ok i) (b : Machine.Block) :
    (Machine.acceptEffect i b).op = opField c.cmd := by
  obtain ⟨-, rfl⟩ := decode_eq_ok h
  generalize opField c.cmd = op
  have hop : ∀ i : Instr, (Machine.acceptEffect i b).op = opField i.cmdByte := by intro i; cases i <;> rfl
  have hset : ∀ o : BitVec 4, opField (o.setWidth 8) = o := by decide
  rw [hop, opField_cmdByte_decodeOp, hset]

/-- The operand of the operation an operation code selects: `ARG`, or none for a decode operation (R64). -/
theorem operand_decodeOp (code : BitVec 4) (a : Word) :
    (decodeOp code a).operand? = if noOperand code then none else some a := by
  unfold noOperand isVarint isDecode decodeOp
  cases code.getLsbD 3 <;> cases code.getLsbD 2 <;> cases code.getLsbD 1 <;> cases code.getLsbD 0 <;> rfl

/-- The command byte of an operation code has that code and no reserved bit (R60). -/
theorem opField_setWidth (code : BitVec 4) :
    opField (code.setWidth 8) = code ∧ (code.setWidth 8 : Byte).toNat < 16 := by
  revert code; decide

/-- The low bits of a number's 64-bit pattern are its pattern at the smaller width (R64). -/
theorem setWidth_ofInt {w : Nat} (hw : w ≤ 64) (v : Int) : (BitVec.ofInt 64 v).setWidth w = BitVec.ofInt w v := by
  rw [← BitVec.toNat_inj, BitVec.toNat_setWidth, BitVec.toNat_ofInt, BitVec.toNat_ofInt]
  have hd : ((2 ^ w : Nat) : Int) ∣ ((2 ^ 64 : Nat) : Int) := by exact_mod_cast Nat.pow_dvd_pow 2 hw
  have h1 : 0 ≤ v % ((2 ^ 64 : Nat) : Int) := Int.emod_nonneg _ (by positivity)
  have h2 : 0 ≤ v % ((2 ^ w : Nat) : Int) := Int.emod_nonneg _ (by positivity)
  apply Int.ofNat_inj.1
  rw [Int.natCast_emod, Int.toNat_of_nonneg h1, Int.toNat_of_nonneg h2]
  exact Int.emod_emod_of_dvd v hd

end Sys2Proof
end

