-- ==== Sys2Proof/Laws/Inv.lean ====
section
/-! SUPPORT. The invariants of reachable states by phase: what remains to be shown of a state once its phase is known. -/

namespace Sys2Proof.Machine

open Sys2Proof

/-- In IDLE only the ranges of the response registers matter (R33). -/
theorem inv_of_idle {s : State} (hp : s.blk.phase = .idle) (h : s.blk.RspLegal) : s.Inv :=
  ⟨h, fun e => (by rw [hp] at e; cases e), fun e => (by rw [hp] at e; cases e), fun e => (by rw [hp] at e; cases e)⟩

theorem inv_of_enc {s : State} (hp : s.blk.phase = .enc) (h : s.blk.RspLegal) (he : s.blk.EncInv) : s.Inv :=
  ⟨h, he, fun e => (by rw [hp] at e; cases e), fun e => (by rw [hp] at e; cases e)⟩

theorem inv_of_dec {s : State} (hp : s.blk.phase = .dec) (h : s.blk.RspLegal) (hd : s.blk.DecInv) : s.Inv :=
  ⟨h, fun e => (by rw [hp] at e; cases e), hd, fun e => (by rw [hp] at e; cases e)⟩

/-- In RESP: a value that fits the width, and a count that is 0 or a varint operation's (R35). -/
theorem inv_of_resp {s : State} (hp : s.blk.phase = .resp) (h : s.blk.RspLegal)
    (hv : s.blk.rspValue.toNat < 2 ^ opWidth s.blk.op)
    (hc : s.blk.rspCount = 0#4 ∨
      s.blk.rspStatus ≠ 4#3 ∧ isVarint s.blk.op = true ∧ s.blk.rspCount.toNat ≤ maxBytes (opWidth s.blk.op)) :
    s.Inv := by
  refine ⟨h, fun e => (by rw [hp] at e; cases e), fun e => (by rw [hp] at e; cases e), fun _ => ⟨hv, ?_⟩⟩
  obtain h0 | ⟨h1, h2, h3⟩ := hc
  · exact ⟨fun _ => h0, fun _ _ => h0, fun _ _ => by rw [h0]; exact Nat.zero_le _⟩
  · exact ⟨fun e => absurd e h1, fun _ e => by (rw [h2] at e; cases e), fun _ _ => h3⟩

/-- A count below MAX_BYTES of a varint operation is below 10 (R6, R7). -/
theorem cnt_lt_ten {op : BitVec 4} {n : Nat} (h : n < maxBytes (varintWidth op)) : n < 10 := by
  obtain ⟨-, hw⟩ | ⟨-, hw⟩ := varintWidth_cases op <;> rw [hw] at h <;> simp at h <;> omega

end Sys2Proof.Machine
end

