-- ==== Sys2Proof/Laws/PerInstr.lean ====
section
/-! SUPPORT. Statements made once for each instruction as syntax. RoundTrip: decoding the instruction's own encoding gives
the instruction, with the operand it carries (R62). -/

namespace Sys2Proof.Laws.RoundTrip

open Sys2Proof

def Statement (i : Instr) : Prop := decode (encode i) = .ok i

theorem zzenc8 (arg : Word) : Statement (.zzenc8 arg) := by
  simp [Statement, decode, encode, Instr.cmdByte, Instr.operand?, rsvField, opField, decodeOp]

theorem zzenc16 (arg : Word) : Statement (.zzenc16 arg) := by
  simp [Statement, decode, encode, Instr.cmdByte, Instr.operand?, rsvField, opField, decodeOp]

theorem zzenc32 (arg : Word) : Statement (.zzenc32 arg) := by
  simp [Statement, decode, encode, Instr.cmdByte, Instr.operand?, rsvField, opField, decodeOp]

theorem zzenc64 (arg : Word) : Statement (.zzenc64 arg) := by
  simp [Statement, decode, encode, Instr.cmdByte, Instr.operand?, rsvField, opField, decodeOp]

theorem zzdec8 (arg : Word) : Statement (.zzdec8 arg) := by
  simp [Statement, decode, encode, Instr.cmdByte, Instr.operand?, rsvField, opField, decodeOp]

theorem zzdec16 (arg : Word) : Statement (.zzdec16 arg) := by
  simp [Statement, decode, encode, Instr.cmdByte, Instr.operand?, rsvField, opField, decodeOp]

theorem zzdec32 (arg : Word) : Statement (.zzdec32 arg) := by
  simp [Statement, decode, encode, Instr.cmdByte, Instr.operand?, rsvField, opField, decodeOp]

theorem zzdec64 (arg : Word) : Statement (.zzdec64 arg) := by
  simp [Statement, decode, encode, Instr.cmdByte, Instr.operand?, rsvField, opField, decodeOp]

theorem vencu32 (arg : Word) : Statement (.vencu32 arg) := by
  simp [Statement, decode, encode, Instr.cmdByte, Instr.operand?, rsvField, opField, decodeOp]

theorem vencu64 (arg : Word) : Statement (.vencu64 arg) := by
  simp [Statement, decode, encode, Instr.cmdByte, Instr.operand?, rsvField, opField, decodeOp]

theorem vencs32 (arg : Word) : Statement (.vencs32 arg) := by
  simp [Statement, decode, encode, Instr.cmdByte, Instr.operand?, rsvField, opField, decodeOp]

theorem vencs64 (arg : Word) : Statement (.vencs64 arg) := by
  simp [Statement, decode, encode, Instr.cmdByte, Instr.operand?, rsvField, opField, decodeOp]

theorem vdecu32 : Statement .vdecu32 := by
  simp [Statement, decode, encode, Instr.cmdByte, Instr.operand?, rsvField, opField, decodeOp]

theorem vdecu64 : Statement .vdecu64 := by
  simp [Statement, decode, encode, Instr.cmdByte, Instr.operand?, rsvField, opField, decodeOp]

theorem vdecs32 : Statement .vdecs32 := by
  simp [Statement, decode, encode, Instr.cmdByte, Instr.operand?, rsvField, opField, decodeOp]

theorem vdecs64 : Statement .vdecs64 := by
  simp [Statement, decode, encode, Instr.cmdByte, Instr.operand?, rsvField, opField, decodeOp]

end Sys2Proof.Laws.RoundTrip
end

