-- ==== Sys2Proof/Laws/Run.lean ====
section
/-! SUPPORT. Runs of several steps: how a run unfolds, and what an encode or a decode in flight does while its bytes are
neither its last nor its first. -/

namespace Sys2Proof.Machine

open Sys2Proof

theorem runFor_zero (s : State) : runFor 0 s = .next s := rfl

/-- A run unfolds into its first step and the rest. -/
theorem runFor_succ_eq (k : Nat) (s : State) :
    runFor (k + 1) s =
      (match step s with
        | .next t => runFor k t
        | .fault r => .fault r
        | .refused r => .refused r) := by
  have h : Sys2Proof.core.step s = step s := rfl
  have e := Host.Core.run.eq_2 Sys2Proof.core s k
  rw [h] at e
  refine Eq.trans e ?_
  cases step s <;> rfl

/-- A run begins with a step that answers a next state. -/
theorem runFor_succ {s t : State} (k : Nat) (h : step s = .next t) : runFor (k + 1) s = runFor k t := by
  rw [runFor_succ_eq, h]

theorem runFor_one {s t : State} (h : step s = .next t) : runFor 1 s = .next t := by
  rw [runFor_succ 0 h, runFor_zero]

/-- Two runs one after the other are one run. -/
theorem runFor_add {s t : State} {j : Nat} (k : Nat) (h : runFor j s = .next t) :
    runFor (j + k) s = runFor k t := by
  induction j generalizing s with
  | zero => cases h; rw [Nat.zero_add]
  | succ j ih =>
    rw [show j + 1 + k = (j + k) + 1 by omega]
    rw [runFor_succ_eq] at h ⊢
    cases hs : step s with
    | next u => rw [hs] at h; exact ih h
    | fault r => rw [hs] at h; cases h
    | refused r => rw [hs] at h; cases h

/-- With `rst` low for good, the step in IDLE takes the first command off the port. -/
theorem step_of_offers {s : State} {c : Command} {rest : List Command} (h : s.Offers c rest) :
    step s = acceptCommand c { s with env := { s.env with cmds := rest } } := by
  obtain ⟨hp, hr, hc⟩ := h
  obtain ⟨b, v⟩ := s
  obtain ⟨cmds, rdy, src, srcThen, snk, snkThen, sink, taken, rst⟩ := v
  simp only at hp hr hc
  subst hr hc
  simp only [step, takeOffer, State.offer, Env.rstHigh, List.headD_nil, Bool.false_eq_true, if_false, hp,
    Env.passRst, Env.nextCmd, List.tail_nil, fire]

/-- An accepted legal command in a run: its effect, with the command off the port. -/
theorem step_of_offers_ok {s : State} {c : Command} {rest : List Command} {i : Instr} (h : s.Offers c rest)
    (hd : decode c = .ok i) :
    step s = .next { blk := acceptEffect i s.blk, env := { s.env with cmds := rest } } := by
  rw [step_of_offers h]
  unfold acceptCommand
  rw [hd]
  simp only [exec_eq]
  rw [acceptStep_of_idle (s := { s with env := { s.env with cmds := rest } }) h.1]
  rfl

/-- With `rst` low for good, the step in ENC takes the sink's next answer: the first of the list, or the constant. -/
theorem step_of_enc {s : State} {a : SnkAnswer} (hp : s.blk.phase = .enc) (hr : s.env.rst = [])
    (hs : s.env.snk.head?.or s.env.snkThen = some a) :
    step s = writeStep a { s with env := { s.env with snk := s.env.snk.tail } } := by
  obtain ⟨b, v⟩ := s
  obtain ⟨cmds, rdy, src, srcThen, snk, snkThen, sink, taken, rst⟩ := v
  simp only at hp hr hs
  subst hr
  cases snk <;> simp at hs <;> subst hs <;>
    simp only [step, takeOffer, State.offer, Env.rstHigh, List.headD_nil, Bool.false_eq_true, if_false, hp,
      Env.passRst, Env.nextSnk, List.tail_nil, List.tail_cons, Option.map_some, fire]

/-- With `rst` low for good, the step in DEC takes the source's next answer: the first of the list, or the constant. -/
theorem step_of_dec {s : State} {a : SrcAnswer} (hp : s.blk.phase = .dec) (hr : s.env.rst = [])
    (hs : s.env.src.head?.or s.env.srcThen = some a) :
    step s = readStep a { s with env := { s.env with src := s.env.src.tail } } := by
  obtain ⟨b, v⟩ := s
  obtain ⟨cmds, rdy, src, srcThen, snk, snkThen, sink, taken, rst⟩ := v
  simp only at hp hr hs
  subst hr
  cases src <;> simp at hs <;> subst hs <;>
    simp only [step, takeOffer, State.offer, Env.rstHigh, List.headD_nil, Bool.false_eq_true, if_false, hp,
      Env.passRst, Env.nextSrc, List.tail_nil, List.tail_cons, Option.map_some, fire]

/-- The answers of a stream split into those taken first and those the rest of its list and the constant give. -/
theorem gives_append {α : Type} {l : List α} {t : Option α} {as bs more : List α} (h : Gives l t (as ++ bs) more) :
    Gives l t as (l.drop as.length) ∧ Gives (l.drop as.length) t bs more := by
  obtain ⟨h, rfl⟩ := h
  simp only [List.length_append] at h
  refine ⟨⟨fun j hj => ?_, rfl⟩, ⟨fun j hj => ?_, by rw [List.drop_drop, List.length_append]⟩⟩
  · rw [h j (by omega), List.getElem?_append_left hj]
  · rw [List.getElem?_drop, h (as.length + j) (by omega), List.getElem?_append_right (by omega), Nat.add_sub_cancel_left]

/-- One answer is the first of the list, or the constant once the list is empty, and the rest of the list is left. -/
theorem gives_singleton {α : Type} {l : List α} {t : Option α} {a : α} {more : List α} (h : Gives l t [a] more) :
    l.head?.or t = some a ∧ more = l.tail := by
  obtain ⟨h, rfl⟩ := h
  refine ⟨by rw [List.head?_eq_getElem?]; exact h 0 (by simp), ?_⟩
  rw [List.length_singleton, List.drop_one]

/-- A constant answer repeated: every request it covers gets it. -/
theorem gives_replicate {α : Type} {l : List α} {t : Option α} {a : α} {n : Nat} {more : List α}
    (h : Gives l t (List.replicate n a) more) : ∀ j, j < n → l[j]?.or t = some a := by
  intro j hj
  rw [h.1 j (by simpa using hj)]
  simp [hj]

/-- `s` further on in an encode: another rest of the value and count, fewer sink answers, more bytes in the sink. -/
def State.inEnc (s : State) (acc : Word) (cnt : BitVec 4) (snk : List SnkAnswer) (written : List Byte) : State :=
  { blk := { s.blk with acc := acc, cnt := cnt }, env := { s.env with snk := snk, sink := s.env.sink ++ written } }

@[simp] theorem inEnc_phase (s : State) (a c k w) : (s.inEnc a c k w).blk.phase = s.blk.phase := rfl
@[simp] theorem inEnc_acc (s : State) (a c k w) : (s.inEnc a c k w).blk.acc = a := rfl
@[simp] theorem inEnc_cnt (s : State) (a c k w) : (s.inEnc a c k w).blk.cnt = c := rfl
@[simp] theorem inEnc_op (s : State) (a c k w) : (s.inEnc a c k w).blk.op = s.blk.op := rfl
@[simp] theorem inEnc_rst (s : State) (a c k w) : (s.inEnc a c k w).env.rst = s.env.rst := rfl
@[simp] theorem inEnc_snk (s : State) (a c k w) : (s.inEnc a c k w).env.snk = k := rfl
@[simp] theorem inEnc_snkThen (s : State) (a c k w) : (s.inEnc a c k w).env.snkThen = s.env.snkThen := rfl
@[simp] theorem inEnc_sink (s : State) (a c k w) : (s.inEnc a c k w).env.sink = s.env.sink ++ w := rfl
@[simp] theorem inEnc_inEnc (s : State) (a c k w a' c' k' w') :
    (s.inEnc a c k w).inEnc a' c' k' w' = s.inEnc a' c' k' (w ++ w') := by
  simp only [State.inEnc, List.append_assoc]

/-- `s` further on in a decode: another partial result and count, fewer source answers. -/
def State.inDec (s : State) (acc : Word) (cnt : BitVec 4) (src : List SrcAnswer) : State :=
  { blk := { s.blk with acc := acc, cnt := cnt }, env := { s.env with src := src } }

@[simp] theorem inDec_phase (s : State) (a c k) : (s.inDec a c k).blk.phase = s.blk.phase := rfl
@[simp] theorem inDec_acc (s : State) (a c k) : (s.inDec a c k).blk.acc = a := rfl
@[simp] theorem inDec_cnt (s : State) (a c k) : (s.inDec a c k).blk.cnt = c := rfl
@[simp] theorem inDec_op (s : State) (a c k) : (s.inDec a c k).blk.op = s.blk.op := rfl
@[simp] theorem inDec_rst (s : State) (a c k) : (s.inDec a c k).env.rst = s.env.rst := rfl
@[simp] theorem inDec_src (s : State) (a c k) : (s.inDec a c k).env.src = k := rfl
@[simp] theorem inDec_srcThen (s : State) (a c k) : (s.inDec a c k).env.srcThen = s.env.srcThen := rfl
@[simp] theorem inDec_inDec (s : State) (a c k a' c' k') : (s.inDec a c k).inDec a' c' k' = s.inDec a' c' k' := rfl

/-- A byte that is not the last of an encode, answered Ok, leaves it in ENC (R100). -/
theorem step_of_enc_more {s : State} (hp : s.blk.phase = .enc) (hr : s.env.rst = [])
    (hs : s.env.snk.head?.or s.env.snkThen = some .ok) (hv : 2 ^ 7 ≤ s.blk.acc.toNat) :
    step s = .next (s.inEnc (s.blk.acc >>> 7) (s.blk.cnt + 1#4) s.env.snk.tail [encbyte s.blk.acc]) := by
  have hne : restOf s.blk.acc ≠ 0#64 := by rw [Ne, restOf_eq_zero_iff]; omega
  rw [step_of_enc hp hr hs, writeStep_of_enc (s := { s with env := { s.env with snk := s.env.snk.tail } }) hp]
  obtain ⟨hz, -⟩ | ⟨-, he⟩ := encAdvance_cases s.blk
  · exact absurd hz hne
  · simp only [he, State.withBlk, State.pushSink, restOf, Config.groupBits, State.inEnc]

/-- The last byte of an encode, answered Ok, ends it (R100). -/
theorem step_of_enc_last {s : State} (hp : s.blk.phase = .enc) (hr : s.env.rst = [])
    (hs : s.env.snk.head?.or s.env.snkThen = some .ok) (hv : s.blk.acc.toNat < 2 ^ 7) :
    step s = .next ((s.inEnc s.blk.acc s.blk.cnt s.env.snk.tail [encbyte s.blk.acc]).withBlk
      (s.blk.respond .ok 0#64 (s.blk.cnt + 1#4))) := by
  have he : restOf s.blk.acc = 0#64 := (restOf_eq_zero_iff _).2 hv
  rw [step_of_enc hp hr hs, writeStep_of_enc (s := { s with env := { s.env with snk := s.env.snk.tail } }) hp]
  obtain ⟨-, h⟩ | ⟨hz, -⟩ := encAdvance_cases s.blk
  · simp only [h, State.withBlk, State.pushSink, State.inEnc]
  · exact absurd he hz

/-- A sink failure ends an encode (R100, R109). -/
theorem step_of_enc_fail {s : State} (hp : s.blk.phase = .enc) (hr : s.env.rst = [])
    (hs : s.env.snk.head?.or s.env.snkThen = some .ioFail) :
    step s = .next ((s.inEnc s.blk.acc s.blk.cnt s.env.snk.tail []).withBlk (s.blk.raise .ioFailure s.blk.cnt)) := by
  rw [step_of_enc hp hr hs, writeStep_of_enc (s := { s with env := { s.env with snk := s.env.snk.tail } }) hp]
  simp only [State.withBlk, State.inEnc, List.append_nil]

/-- A byte that ends a decode neither well nor in Overflow leaves it in DEC (R121). -/
theorem step_of_dec_more {s : State} {x : Byte} (hp : s.blk.phase = .dec)
    (hr : s.env.rst = []) (hs : s.env.src.head?.or s.env.srcThen = some (.byte x)) (hc : contFlag x = true)
    (hm : (s.blk.cnt + 1#4).toNat ≠ maxBytes (varintWidth s.blk.op)) :
    step s = .next
      (s.inDec (resultWord (decAccumulate (varintWidth s.blk.op) x s.blk)) (s.blk.cnt + 1#4) s.env.src.tail) := by
  rw [step_of_dec hp hr hs, readStep_of_dec (s := { s with env := { s.env with src := s.env.src.tail } }) hp]
  obtain ⟨h, -⟩ | ⟨-, h, -⟩ | ⟨-, -, h⟩ := decAdvance_cases (varintWidth s.blk.op) x s.blk
  · rw [hc] at h; cases h
  · exact absurd h hm
  · simp only [h, State.withBlk, State.inDec]

/-- A terminator ends a decode with its value (R121). -/
theorem step_of_dec_last {s : State} {x : Byte} (hp : s.blk.phase = .dec)
    (hr : s.env.rst = []) (hs : s.env.src.head?.or s.env.srcThen = some (.byte x)) (hc : contFlag x = false) :
    step s = .next ((s.inDec s.blk.acc s.blk.cnt s.env.src.tail).withBlk
      (s.blk.respond .ok (resultWord (decResult (varintWidth s.blk.op) s.blk.op
        (decAccumulate (varintWidth s.blk.op) x s.blk))) (s.blk.cnt + 1#4))) := by
  rw [step_of_dec hp hr hs, readStep_of_dec (s := { s with env := { s.env with src := s.env.src.tail } }) hp]
  obtain ⟨-, h⟩ | ⟨h, -⟩ | ⟨h, -⟩ := decAdvance_cases (varintWidth s.blk.op) x s.blk
  · simp only [h, State.withBlk, State.inDec]
  · rw [hc] at h; cases h
  · rw [hc] at h; cases h

/-- The last permitted byte without a terminator ends a decode in Overflow (R130). -/
theorem step_of_dec_overflow {s : State} {x : Byte} (hp : s.blk.phase = .dec)
    (hr : s.env.rst = []) (hs : s.env.src.head?.or s.env.srcThen = some (.byte x)) (hc : contFlag x = true)
    (hm : (s.blk.cnt + 1#4).toNat = maxBytes (varintWidth s.blk.op)) :
    step s = .next ((s.inDec s.blk.acc s.blk.cnt s.env.src.tail).withBlk (s.blk.raise .overflow (s.blk.cnt + 1#4))) := by
  rw [step_of_dec hp hr hs, readStep_of_dec (s := { s with env := { s.env with src := s.env.src.tail } }) hp]
  obtain ⟨h, -⟩ | ⟨-, -, h⟩ | ⟨-, h, -⟩ := decAdvance_cases (varintWidth s.blk.op) x s.blk
  · rw [hc] at h; cases h
  · simp only [h, State.withBlk, State.inDec]
  · exact absurd hm h

theorem shiftRight_toNat (v : Word) (k : Nat) : (v >>> k).toNat = v.toNat / 2 ^ k := by
  simp [BitVec.toNat_ushiftRight, Nat.shiftRight_eq_div_pow]

theorem shiftRight_shiftRight (v : Word) (j k : Nat) : v >>> j >>> k = v >>> (j + k) := by
  rw [← BitVec.toNat_inj]; simp only [shiftRight_toNat, Nat.div_div_eq_div_mul, ← pow_add]

/-- `k` bytes of an encode, none of them its last, each answered Ok (R100). -/
theorem runFor_enc_more (k : Nat) : ∀ s : State, s.blk.phase = .enc → s.env.rst = [] →
    (∀ j, j < k → s.env.snk[j]?.or s.env.snkThen = some .ok) →
    (∀ j, j < k → 2 ^ 7 ≤ (s.blk.acc >>> (7 * j)).toNat) →
    runFor k s = .next (s.inEnc (s.blk.acc >>> (7 * k)) (s.blk.cnt + BitVec.ofNat 4 k) (s.env.snk.drop k)
      ((List.range k).map fun j => encbyte (s.blk.acc >>> (7 * j)))) := by
  induction k with
  | zero =>
    intro s _ _ _ _
    rw [runFor_zero]
    simp [State.inEnc]
  | succ k ih =>
    intro s hp hr hs hv
    have h0 := hv 0 (by omega)
    rw [runFor_succ k (step_of_enc_more hp hr (by rw [List.head?_eq_getElem?]; exact hs 0 (by omega))
      (by simpa using h0))]
    have hrest := ih (s.inEnc (s.blk.acc >>> 7) (s.blk.cnt + 1#4) s.env.snk.tail [encbyte s.blk.acc]) hp hr
      (fun j hj => by rw [inEnc_snk, inEnc_snkThen, List.getElem?_tail]; exact hs (j + 1) (by omega)) (fun j hj => by
        rw [inEnc_acc, shiftRight_shiftRight, show 7 + 7 * j = 7 * (j + 1) by omega]; exact hv (j + 1) (by omega))
    rw [hrest]
    rw [inEnc_inEnc, inEnc_acc, inEnc_cnt, inEnc_snk, List.drop_tail, shiftRight_shiftRight,
      show 7 + 7 * k = 7 * (k + 1) by omega]
    have hcnt : s.blk.cnt + 1#4 + BitVec.ofNat 4 k = s.blk.cnt + BitVec.ofNat 4 (k + 1) := by
      rw [BitVec.add_assoc]; congr 1; rw [← BitVec.toNat_inj]; simp; omega
    have hbytes : [encbyte s.blk.acc] ++ (List.range k).map (fun j => encbyte (s.blk.acc >>> 7 >>> (7 * j))) =
        (List.range (k + 1)).map fun j => encbyte (s.blk.acc >>> (7 * j)) := by
      rw [List.range_succ_eq_map, List.map_cons, List.map_map]
      simp only [List.singleton_append, Nat.mul_zero, BitVec.ushiftRight_zero, List.cons.injEq, true_and]
      apply List.map_congr_left
      intro j _
      rw [Function.comp_apply, shiftRight_shiftRight, show 7 + 7 * j = 7 * (j + 1) by omega]
    rw [hcnt, hbytes]

@[simp] theorem groupSum_nil : groupSum [] = 0 := rfl

theorem groupSum_cons (b : Byte) (bs : List Byte) : groupSum (b :: bs) = b.toNat % 2 ^ 7 + 2 ^ 7 * groupSum bs := by
  rw [groupSum, payload_toNat]

/-- The groups of a sequence read one after another (R129). -/
theorem groupSum_append (as bs : List Byte) :
    groupSum (as ++ bs) = groupSum as + 2 ^ (7 * as.length) * groupSum bs := by
  induction as with
  | nil => simp
  | cons a as ih =>
    rw [List.cons_append, groupSum_cons, groupSum_cons, ih, List.length_cons, show 7 * (as.length + 1) = 7 + 7 * as.length by omega, pow_add]
    ring

theorem groupSum_lt (bs : List Byte) : groupSum bs < 2 ^ (7 * bs.length) := by
  induction bs with
  | nil => simp
  | cons b bs ih =>
    have hb : b.toNat % 2 ^ 7 < 2 ^ 7 := Nat.mod_lt _ (by decide)
    rw [groupSum_cons, List.length_cons, show 7 * (bs.length + 1) = 7 + 7 * bs.length by omega, pow_add]
    have : 2 ^ 7 * (groupSum bs + 1) ≤ 2 ^ 7 * 2 ^ (7 * bs.length) := Nat.mul_le_mul_left _ ih
    omega

/-- The groups before the last permitted one all fit below the width (R123). -/
theorem groups_fit {w n : Nat} (hw : w = 32 ∨ w = 64) (hn : n < maxBytes w) : 7 * n < w := by
  rcases hw with rfl | rfl <;> simp at hn <;> omega

/-- One more group, in a decode that has read the bytes `bs` (R121, R129). -/
theorem decAccumulate_groupSum {w : Nat} {b : Block} {bs : List Byte} (x : Byte) (hw : w = 32 ∨ w = 64)
    (hlen : bs.length < maxBytes w) (hacc : b.acc = BitVec.ofNat 64 (groupSum bs))
    (hcnt : b.cnt = BitVec.ofNat 4 bs.length) :
    decAccumulate w x b = BitVec.ofNat w (groupSum (bs ++ [x])) := by
  have h7 := groups_fit hw hlen
  have hc : b.cnt.toNat = bs.length := by
    rw [hcnt]; simp; rcases hw with rfl | rfl <;> simp at hlen <;> omega
  have hlt := groupSum_lt bs
  have h64 : 2 ^ (7 * bs.length) ≤ 2 ^ 64 := Nat.pow_le_pow_right (by decide) (by omega)
  have ha : b.acc.toNat = groupSum bs := by
    rw [hacc, BitVec.toNat_ofNat, Nat.mod_eq_of_lt (by omega)]
  rw [← BitVec.toNat_inj, decAccumulate_toNat x (by omega) (by omega) (by rw [hc]; exact h7) (by rw [hc, ha]; exact hlt),
    BitVec.toNat_ofNat, groupSum_append, groupSum_cons, groupSum_nil, ha, hc]
  congr 1
  ring

/-- The bytes `bs` of a decode that has read the bytes `as`, none of them its last or one too many (R121). -/
theorem runFor_dec_more {w : Nat} (hw : w = 32 ∨ w = 64) (bs : List Byte) :
    ∀ (as : List Byte) (s : State), s.blk.phase = .dec → s.env.rst = [] →
      varintWidth s.blk.op = w → (∀ j, j < bs.length → s.env.src[j]?.or s.env.srcThen = (bs.map .byte)[j]?) →
      (∀ b ∈ bs, contFlag b = true) →
      (as ++ bs).length < maxBytes w → s.blk.acc = BitVec.ofNat 64 (groupSum as) →
      s.blk.cnt = BitVec.ofNat 4 as.length →
      runFor bs.length s = .next (s.inDec (BitVec.ofNat 64 (groupSum (as ++ bs)))
        (BitVec.ofNat 4 (as ++ bs).length) (s.env.src.drop bs.length)) := by
  induction bs with
  | nil =>
    intro as s _ _ _ _ _ _ hacc hcnt
    rw [List.length_nil, runFor_zero]
    simp only [State.inDec, List.append_nil, ← hacc, ← hcnt, List.drop_zero]
  | cons x bs ih =>
    intro as s hp hr hop hs hc hlen hacc hcnt
    have hlen' : as.length + (bs.length + 1) < maxBytes w := by simpa using hlen
    have h10 : maxBytes w ≤ 10 := by rcases hw with rfl | rfl <;> simp
    have hsum := decAccumulate_groupSum x hw (by omega) hacc hcnt
    have hsucc : s.blk.cnt + 1#4 = BitVec.ofNat 4 (as ++ [x]).length := by
      rw [hcnt, ← BitVec.toNat_inj]; simp
    have hstep := step_of_dec_more (x := x) hp hr
      (by rw [List.head?_eq_getElem?]; exact hs 0 (by simp)) (hc x (by simp)) (by
      rw [hop, hsucc]; simp; omega)
    rw [List.length_cons, runFor_succ _ hstep]
    have hres : resultWord (decAccumulate (varintWidth s.blk.op) x s.blk) =
        BitVec.ofNat 64 (groupSum (as ++ [x])) := by
      rw [hop, hsum, ← BitVec.toNat_inj, resultWord_toNat (by omega), BitVec.toNat_ofNat, BitVec.toNat_ofNat]
      have hlt := groupSum_lt (as ++ [x])
      have h7 := groups_fit (n := (as ++ [x]).length) hw (by simp; omega)
      have h1 : 2 ^ (7 * (as ++ [x]).length) ≤ 2 ^ w := Nat.pow_le_pow_right (by decide) (by omega)
      have h2 : 2 ^ w ≤ 2 ^ 64 := Nat.pow_le_pow_right (by decide) (by omega)
      rw [Nat.mod_eq_of_lt (by omega), Nat.mod_eq_of_lt (by omega)]
    rw [hres, hsucc]
    have hrest := ih (as ++ [x])
      (s.inDec (BitVec.ofNat 64 (groupSum (as ++ [x]))) (BitVec.ofNat 4 (as ++ [x]).length) s.env.src.tail)
      hp hr hop (fun j hj => by
        rw [inDec_src, inDec_srcThen, List.getElem?_tail]; exact hs (j + 1) (by simpa using hj)) (fun b hb => hc b (by simp [hb])) (by simpa using hlen) rfl rfl
    rw [hrest, inDec_inDec, inDec_src, List.drop_tail, List.append_assoc, List.singleton_append]

end Sys2Proof.Machine
end

