-- ==== Sys2Proof/Tests/Slice0.lean ====
section
/-! SUPPORT. Small tests, each about one decode, one check or one step, and the witnesses of the statements' hypotheses.
Expected values are those of 95_test_vectors.md and of the rules' own examples, cited at each group. -/

namespace Sys2Proof.Tests

open Sys2Proof Sys2Proof.Machine

/-! ## Decoding: words written bit by bit from R60 (RSV, V, D, then WW or S L) -/

/-- R62, zig-zag encode: 0000 0 0 10 is ZZENC32. -/
theorem test_decode_zzenc32 : decode ⟨0b0000_0_0_10#8, 0x7#64⟩ = .ok (.zzenc32 0x7#64) := rfl

/-- R62, zig-zag decode: 0000 0 1 01 is ZZDEC16. -/
theorem test_decode_zzdec16 : decode ⟨0b0000_0_1_01#8, 0x3#64⟩ = .ok (.zzdec16 0x3#64) := rfl

/-- R62, varint encode: 0000 1 0 1 0 is VENCS32. -/
theorem test_decode_vencs32 : decode ⟨0b0000_1_0_1_0#8, 0xFC#64⟩ = .ok (.vencs32 0xFC#64) := rfl

/-- R62, varint decode: 0000 1 1 0 1 is VDECU64, whatever ARG. -/
theorem test_decode_vdecu64 : decode ⟨0b0000_1_1_0_1#8, 0xFC#64⟩ = .ok .vdecu64 := rfl

/-- R62 and 95 "Command decode": 0x0F is the last legal byte. -/
theorem test_decode_last_legal : decode ⟨0x0F#8, 0#64⟩ = .ok .vdecs64 := rfl

/-- R63: bit 4 alone is a reserved bit. -/
theorem test_decode_first_reserved : decode ⟨0x10#8, 0#64⟩ = .error (.reservedBitsSet 0b0001#4) := rfl

/-- R63 and 95 "Command decode": 0x8C is a legal code with CMD[7] set. -/
theorem test_decode_reserved_over_legal_code : decode ⟨0x8C#8, 0#64⟩ = .error (.reservedBitsSet 0b1000#4) := rfl

/-- Every row of the opcode map, as the table numbers its bits: the table's CMD, with an operand of zeros. -/
theorem test_table_rows :
    [0x00, 0x01, 0x02, 0x03].map (decodeTableWord 8) =
      [some (Instr.zzenc8 0#64), some (Instr.zzenc16 0#64), some (Instr.zzenc32 0#64), some (Instr.zzenc64 0#64)] ∧
    [0x04, 0x05, 0x06, 0x07].map (decodeTableWord 8) =
      [some (Instr.zzdec8 0#64), some (Instr.zzdec16 0#64), some (Instr.zzdec32 0#64), some (Instr.zzdec64 0#64)] ∧
    [0x08, 0x09, 0x0A, 0x0B].map (decodeTableWord 8) =
      [some (Instr.vencu32 0#64), some (Instr.vencu64 0#64), some (Instr.vencs32 0#64), some (Instr.vencs64 0#64)] ∧
    [0x0C, 0x0D, 0x0E, 0x0F].map (decodeTableWord 8) =
      [some Instr.vdecu32, some Instr.vdecu64, some Instr.vdecs32, some Instr.vdecs64] := by decide

/-- Bits above `nbits` count as 0, and ARG stands above CMD. -/
theorem test_table_word_operand :
    decodeTableWord 72 0x0504 = some (.zzdec8 5#64) ∧ decodeTableWord 8 0x0504 = some (.zzdec8 0#64) ∧
      decodeTableWord 8 0xF0 = none := by decide

/-! ## WellFormed: one ill-formed line for each check of R67 -/

/-- A missing operand, and an operand where none is taken. -/
theorem test_wf_operand_count :
    (AsmLine.op 0x8#4 none).wf = false ∧ (AsmLine.op 0xC#4 (some (.dec false 0))).wf = false ∧
      (AsmLine.op 0xC#4 none).wf = true := by decide

/-- A minus sign on an unsigned operation, even before 0. -/
theorem test_wf_minus :
    (AsmLine.op 0x8#4 (some (.dec true 0))).wf = false ∧ (AsmLine.op 0x4#4 (some (.dec true 1))).wf = false ∧
      (AsmLine.op 0xA#4 (some (.dec true 4))).wf = true := by decide

/-- An unsigned operand past `2^W - 1`. -/
theorem test_wf_unsigned_range :
    (AsmLine.op 0x8#4 (some (.hex 0x100000000))).wf = false ∧
      (AsmLine.op 0x8#4 (some (.hex 0xFFFFFFFF))).wf = true := by decide

/-- A signed operand past either end of its patterns (log 17). -/
theorem test_wf_signed_range :
    (AsmLine.op 0x0#4 (some (.dec true 129))).wf = false ∧ (AsmLine.op 0x0#4 (some (.dec false 256))).wf = false ∧
      (AsmLine.op 0x0#4 (some (.dec true 128))).wf = true := by decide

/-- A raw command past a byte, a raw operand past the port, and a raw operand with a minus sign (log 21). -/
theorem test_wf_raw :
    (AsmLine.raw 256 (.hex 0)).wf = false ∧ (AsmLine.raw 0x10 (.hex (2 ^ 64))).wf = false ∧
      (AsmLine.raw 0x10 (.dec true 1)).wf = false ∧ (AsmLine.raw 0x10 (.dec false 5)).wf = true := by decide

/-- 95 P1: `VENCS32 -4` is CMD 0x0A, ARG 0xFFFFFFFFFFFFFFFC. -/
theorem test_assemble_negative :
    assembleLine (.op 0xA#4 (some (.dec true 4))) = some ⟨0x0A#8, 0xFFFFFFFFFFFFFFFC#64⟩ := by decide

/-! ## One step of each instruction -/

/-- PHASE and the response registers. -/
structure Answer where
  phase : Phase
  status : BitVec 3
  value : Word
  count : BitVec 4
deriving DecidableEq, Repr

/-- PHASE, OP, ACC and CNT, and the sink. -/
structure Progress where
  phase : Phase
  op : BitVec 4
  acc : Word
  cnt : BitVec 4
  sink : List Byte
deriving DecidableEq, Repr

/-- The response registers and PHASE of a next state. -/
def response (o : Outcome) : Option Answer :=
  match o with
  | .next t => some ⟨t.blk.phase, t.blk.rspStatus, t.blk.rspValue, t.blk.rspCount⟩
  | .fault _ => none
  | .refused _ => none

/-- PHASE, OP, ACC and CNT of a next state, and its sink. -/
def progress (o : Outcome) : Option Progress :=
  match o with
  | .next t => some ⟨t.blk.phase, t.blk.op, t.blk.acc, t.blk.cnt, t.env.sink⟩
  | .fault _ => none
  | .refused _ => none

/-- The machine after reset with one command on the port. -/
def offered (cmd : Byte) (arg : Word) : State := State.reset.offerFirst ⟨cmd, arg⟩

/-- An encode in flight, with the sink's answers. -/
def encoding (op : BitVec 4) (acc : Word) (cnt : BitVec 4) (snk : List SnkAnswer) : State :=
  { blk := { Block.reset with phase := .enc, op := op, acc := acc, cnt := cnt }, env := { Env.quiet with snk := snk } }

/-- A decode in flight, with the source's answers. -/
def decoding (op : BitVec 4) (acc : Word) (cnt : BitVec 4) (src : List SrcAnswer) : State :=
  { blk := { Block.reset with phase := .dec, op := op, acc := acc, cnt := cnt }, env := { Env.quiet with src := src } }

/-- A response waiting to be delivered. -/
def responding (op : BitVec 4) (status : BitVec 3) (value : Word) (count : BitVec 4) : State :=
  { blk := { Block.reset with phase := .resp, op := op, rspStatus := status, rspValue := value, rspCount := count }
    env := Env.quiet }

/-- R83: the most negative 8-bit number, and ARG's upper bits ignored (95 L2). -/
theorem test_zzenc8 :
    response (step (offered 0x00 0x80)) = some ⟨.resp, 0, 0xFF, 0⟩ ∧
      response (step (offered 0x00 0x123456789ABCDEFF)) = some ⟨.resp, 0, 0x01, 0⟩ := by decide

/-- R84. -/
theorem test_zzenc16 : response (step (offered 0x01 0x7FFF)) = some ⟨.resp, 0, 0xFFFE, 0⟩ := by decide

/-- R85 (S9). -/
theorem test_zzenc32 : response (step (offered 0x02 0x80000000)) = some ⟨.resp, 0, 0xFFFFFFFF, 0⟩ := by decide

/-- R86. -/
theorem test_zzenc64 : response (step (offered 0x03 0xFFFFFFFFFFFFFFFC)) = some ⟨.resp, 0, 0x7, 0⟩ := by decide

/-- R87: the result is zero-extended, not sign-extended (R65). -/
theorem test_zzdec8 : response (step (offered 0x04 0x07)) = some ⟨.resp, 0, 0xFC, 0⟩ := by decide

/-- R88. -/
theorem test_zzdec16 : response (step (offered 0x05 0xFFFE)) = some ⟨.resp, 0, 0x7FFF, 0⟩ := by decide

/-- R89 (S9). -/
theorem test_zzdec32 : response (step (offered 0x06 0xFFFFFFFF)) = some ⟨.resp, 0, 0x80000000, 0⟩ := by decide

/-- R90. -/
theorem test_zzdec64 : response (step (offered 0x07 0x3)) = some ⟨.resp, 0, 0xFFFFFFFFFFFFFFFE, 0⟩ := by decide

/-- R104, 95 L2: ARG's upper half ignored, and 300's first byte 0xAC. -/
theorem test_vencu32 :
    progress (step (offered 0x08 0xFFFFFFFF00000005)) = some ⟨.enc, 0x8, 5, 0, []⟩ ∧
      progress (step (encoding 0x8 300 0 [.ok])) = some ⟨.enc, 0x8, 2, 1, [0xAC]⟩ := by decide

/-- R105, 95 L2: the tenth byte of 2^63 is 0x01, count 10. -/
theorem test_vencu64 :
    progress (step (offered 0x09 0x8000000000000000)) = some ⟨.enc, 0x9, 0x8000000000000000, 0, []⟩ ∧
      response (step (encoding 0x9 1 9 [.ok])) = some ⟨.resp, 0, 0, 10⟩ := by decide

/-- R106, 95 L2: -64 becomes 0x7F, one byte. -/
theorem test_vencs32 :
    progress (step (offered 0x0A 0xFFFFFFFFFFFFFFC0)) = some ⟨.enc, 0xA, 0x7F, 0, []⟩ ∧
      progress (step (encoding 0xA 0x7F 0 [.ok])) = some ⟨.resp, 0xA, 0x7F, 0, [0x7F]⟩ := by decide

/-- R107, 95 L2: the most negative number becomes all ones, and R109: the third byte fails. -/
theorem test_vencs64 :
    progress (step (offered 0x0B 0x8000000000000000)) = some ⟨.enc, 0xB, 0xFFFFFFFFFFFFFFFF, 0, []⟩ ∧
      response (step (encoding 0xB 0x3FFFF 2 [.ioFail])) = some ⟨.resp, 3, 0, 2⟩ := by decide

/-- R125, R123: bits beyond the width are discarded in the fifth byte (95 L2, [0xFF x4, 0x7F]). -/
theorem test_vdecu32 :
    progress (step (offered 0x0C 0xFFFFFFFFFFFFFFFF)) = some ⟨.dec, 0xC, 0, 0, []⟩ ∧
      response (step (decoding 0xC 0x0FFFFFFF 4 [.byte 0x7F])) = some ⟨.resp, 0, 0xFFFFFFFF, 5⟩ := by decide

/-- R126, R130: the tenth byte without a terminator (95 L2, [0x80 x10]); a shift past 32 bits ([0x80 x4, 0x10]). -/
theorem test_vdecu64 :
    response (step (decoding 0xD 0 9 [.byte 0x80])) = some ⟨.resp, 2, 0, 10⟩ ∧
      response (step (decoding 0xD 0 4 [.byte 0x10])) = some ⟨.resp, 0, 0x100000000, 5⟩ := by decide

/-- R127, 95 L2: [0x07] is -4 as 32 bits, zero-extended; and End before any byte. -/
theorem test_vdecs32 :
    response (step (decoding 0xE 0 0 [.byte 0x07])) = some ⟨.resp, 0, 0xFFFFFFFC, 1⟩ ∧
      response (step (decoding 0xE 0 0 [.endInput])) = some ⟨.resp, 1, 0, 0⟩ := by decide

/-- R128, 95 L2: [0x03] is -2; and a failed source after two bytes. -/
theorem test_vdecs64 :
    response (step (decoding 0xF 0 0 [.byte 0x03])) = some ⟨.resp, 0, 0xFFFFFFFFFFFFFFFE, 1⟩ ∧
      response (step (decoding 0xF 0 2 [.ioFail])) = some ⟨.resp, 3, 0, 2⟩ := by decide

/-- R66: IllegalCommand, and OP unchanged. -/
theorem test_illegal :
    response (step (offered 0x10 5)) = some ⟨.resp, 4, 0, 0⟩ ∧
      progress (step ((decoding 0xC 0 0 []).offerFirst ⟨0xFF, 0⟩)) = some ⟨.resp, 0xC, 0, 0, []⟩ := by decide

/-! ## Witnesses of the statements' hypotheses -/

/-- A state of each phase that meets the invariants, with `rst` low: StepsEnabledByPhase, StepKeepsInvariants, and in RESP
DeliverReturnsToIdle. -/
theorem witness_idle_inv :
    (offered 0x03 5).Inv ∧ (offered 0x03 5).blk.phase = .idle ∧ (offered 0x03 5).env.rstHigh = false := by decide

theorem witness_enc_inv :
    (encoding 0x8 300 0 [.ok]).Inv ∧ (encoding 0x8 300 0 [.ok]).blk.phase = .enc ∧
      (encoding 0x8 300 0 [.ok]).env.rstHigh = false := by decide

theorem witness_dec_inv :
    (decoding 0xC 0x0FFFFFFF 4 [.byte 0x7F]).Inv ∧ (decoding 0xC 0x0FFFFFFF 4 [.byte 0x7F]).blk.phase = .dec ∧
      (decoding 0xC 0x0FFFFFFF 4 [.byte 0x7F]).env.rstHigh = false := by decide

theorem witness_resp_inv :
    (responding 0xC 2 0 5).Inv ∧ (responding 0xC 2 0 5).blk.phase = .resp ∧
      (responding 0xC 2 0 5).env.rstHigh = false ∧ (responding 0xC 2 0 5).env.rspReady = true := by decide

/-- OfferedCommandIsHeld, PhaseMoves, OpWrittenOnlyByLegalAccept, ResponseWrittenOnlyOnEnteringResp,
StepKeepsInvariants, SourceIsReadOnlyByDecodes, SinkKeepsWhatItTook: each phase's state answers a next state. -/
theorem witness_steps :
    (∃ t, step (offered 0x03 5) = .next t) ∧ (∃ t, step (encoding 0x8 300 0 [.ok]) = .next t) ∧
    (∃ t, step (decoding 0xC 0x0FFFFFFF 4 [.byte 0x7F]) = .next t) ∧ (∃ t, step (responding 0xC 2 0 5) = .next t) :=
  ⟨⟨_, rfl⟩, ⟨_, rfl⟩, ⟨_, rfl⟩, ⟨_, rfl⟩⟩

/-- DecodeAndEncodeAgree: an accepted command with an operand, at the last legal byte that takes one. -/
theorem witness_DecodeAndEncodeAgree :
    decode ⟨0x0B#8, 0x8000000000000000#64⟩ = .ok (.vencs64 0x8000000000000000#64) ∧
      (Instr.vencs64 0x8000000000000000#64).operand? = some 0x8000000000000000#64 := ⟨rfl, rfl⟩

/-- OperationWidths: zig-zag 64, varint 32 and varint 64 codes. -/
theorem witness_OperationWidths :
    (0x7#4).getLsbD 3 = false ∧ (0x8#4).getLsbD 3 = true ∧ (0xF#4).getLsbD 3 = true := by decide

/-- UpperOperandBitsIgnored: different operands with the same low bits, at each width. -/
theorem witness_UpperOperandBitsIgnored :
    (0x123456789ABCDEFF#64).setWidth 8 = (0xFF#64).setWidth 8 ∧
    (0x1FFFF#64).setWidth 16 = (0xFFFF#64).setWidth 16 ∧
    (0xFFFFFFFFFFFFFFFF#64).setWidth 32 = (0xFFFFFFFF#64).setWidth 32 := by decide

/-- ReservedCommandBytesAreIllegal: the first reserved byte and the last legal one. -/
theorem witness_ReservedCommandBytesAreIllegal :
    (offered 0x10 0).env.cmds = ⟨0x10#8, 0#64⟩ :: [] ∧ 16 ≤ (0x10#8).toNat ∧
    (offered 0x0F 0).env.cmds = ⟨0x0F#8, 0#64⟩ :: [] ∧ (0x0F#8).toNat < 16 := by decide

/-- AssembledLineDecodes: a well-formed line of each shape. -/
theorem witness_AssembledLineDecodes :
    (AsmLine.op 0xA#4 (some (.dec true 4))).wf = true ∧ (AsmLine.op 0xF#4 none).wf = true ∧
    (AsmLine.raw 0xFF (.hex 0xFFFFFFFFFFFFFFFF)).wf = true := by decide

/-- StepRunsDecodedInstruction: the command on the port decodes. -/
theorem witness_StepRunsDecodedInstruction :
    (offered 0x03 5).env.cmds = ⟨0x03#8, 5#64⟩ :: [] ∧ decode ⟨0x03#8, 5#64⟩ = .ok (.zzenc64 5#64) := ⟨rfl, rfl⟩

theorem witness_FetchedWordRunsNext : decodeTableWord 8 0x0F = some .vdecs64 := rfl

/-- WaitingBlockHasOnlyReset: the three waits. -/
theorem witness_WaitingBlockHasOnlyReset :
    ((encoding 0x8 0 0 []).blk.phase = .enc ∧ (encoding 0x8 0 0 []).env.snk = [] ∧
      (encoding 0x8 0 0 []).env.snkThen = none) ∧
    ((decoding 0xC 0 0 []).blk.phase = .dec ∧ (decoding 0xC 0 0 []).env.src = [] ∧
      (decoding 0xC 0 0 []).env.srcThen = none) ∧
    (let s := { responding 0x0 0 0 0 with env := { Env.quiet with rspReady := false } };
      s.blk.phase = .resp ∧ s.env.rspReady = false) := by decide

/-- CommandNotAcceptedWhileBusy: the three busy phases. -/
theorem witness_CommandNotAcceptedWhileBusy :
    (encoding 0x8 0 0 []).blk.phase ≠ .idle ∧ (decoding 0xC 0 0 []).blk.phase ≠ .idle ∧
    (responding 0x0 0 0 0).blk.phase ≠ .idle := by decide

/-- OneHandshakeOpenPerPhase: a block in ENC. -/
theorem witness_OneHandshakeOpenPerPhase : (encoding 0x8 0 0 []).blk.phase = .enc := rfl

/-- ExecFrame: a zig-zag and a varint operation that complete. -/
theorem witness_ExecFrame :
    ((∃ t, exec (.zzdec64 5#64) State.reset = .next t) ∧ isVarint (opField (encode (.zzdec64 5#64)).cmd) = false) ∧
    ((∃ t, exec .vdecu32 State.reset = .next t) ∧ isVarint (opField (encode .vdecu32).cmd) = true) :=
  ⟨⟨⟨_, rfl⟩, rfl⟩, ⟨⟨_, rfl⟩, rfl⟩⟩

/-- ZigzagEncodeResults, ZigzagDecodeResults, EncodeStarts, DecodeStarts, FirstStepAfterResetIsAccept. -/
theorem witness_idle : State.reset.blk.phase = .idle ∧ State.reset.blk = Block.reset := ⟨rfl, rfl⟩

/-- The pairs of ZigzagEncodeResults and ZigzagDecodeResults at each width, one extreme of each. -/
theorem witness_ZigzagIntegerLaws :
    (0 ≤ (0x7F#8).toInt ∧ (0x7F#8).toInt = 2 ^ (8 - 1) - 1) ∧
    ((0x80#8).toInt < 0 ∧ (0x80#8).toInt = -2 ^ (8 - 1)) ∧
    (0x7FFFFFFFFFFFFFFF#64).toInt = 2 ^ (64 - 1) - 1 ∧ (0x8000000000000000#64).toInt = -2 ^ (64 - 1) ∧
    (0xFE#8).toNat % 2 = 0 ∧ (0xFF#8).toNat % 2 = 1 := by decide

/-- WriteStepRule: the last byte of a value and one before it. -/
theorem witness_WriteStepRule :
    ((encoding 0x8 0x7F 4 []).blk.phase = .enc ∧ (encoding 0x8 0x7F 4 []).blk.acc >>> 7 = 0#64) ∧
    ((encoding 0x8 0x80 0 []).blk.phase = .enc ∧ (encoding 0x8 0x80 0 []).blk.acc >>> 7 ≠ 0#64) := by decide

/-- VarintLengthThresholds: each side of a threshold. -/
theorem witness_VarintLengthThresholds :
    (0x7F#64).toNat < 2 ^ 7 ∧ varintLen 0x7F#64 = 1 ∧ 2 ^ 7 ≤ (0x80#64).toNat ∧ varintLen 0x80#64 = 2 ∧
    (0xFFFFFFFF#64).toNat < 2 ^ 32 ∧ varintLen 0xFFFFFFFF#64 = 5 := by decide

/-- The machine with a command offered and the sink's answers. -/
def offeredEncode (cmd : Byte) (arg : Word) (snk : List SnkAnswer) : State :=
  { offered cmd arg with env := { (offered cmd arg).env with snk := snk } }

/-- The state with constant answers of the source and of the sink for every request past the lists. -/
def thenAnswers (a : SrcAnswer) (b : SnkAnswer) (s : State) : State :=
  { s with env := { s.env with srcThen := some a, snkThen := some b } }

/-- EncodeWritesItsVarint: the shortest encode with its answer in the list, and the longest with an empty list and a
sink that answers Ok for good, as in 95_test_vectors.md. -/
theorem witness_EncodeWritesItsVarint :
    ((offeredEncode 0x08 0 [.ok]).Offers ⟨0x08#8, 0#64⟩ [] ∧ decode ⟨0x08#8, 0#64⟩ = .ok (.vencu32 0#64) ∧
      Gives (offeredEncode 0x08 0 [.ok]).env.snk (offeredEncode 0x08 0 [.ok]).env.snkThen
        (List.replicate (varintLen 0#64) SnkAnswer.ok) []) ∧
    (let s := thenAnswers .endInput .ok (offeredEncode 0x0B 0x8000000000000000#64 []);
      s.Offers ⟨0x0B#8, 0x8000000000000000#64⟩ [] ∧
      decode ⟨0x0B#8, 0x8000000000000000#64⟩ = .ok (.vencs64 0x8000000000000000#64) ∧
      Gives s.env.snk s.env.snkThen
        (List.replicate (varintLen (zzEnc 64 0x8000000000000000#64)) SnkAnswer.ok) []) := by decide

/-- SinkFailureEndsEncode: a failure on the first byte, and on the last of ten by the constant. -/
theorem witness_SinkFailureEndsEncode :
    ((offeredEncode 0x08 0 [.ioFail]).Offers ⟨0x08#8, 0#64⟩ [] ∧ decode ⟨0x08#8, 0#64⟩ = .ok (.vencu32 0#64) ∧
      0 < varintLen 0#64 ∧
      Gives (offeredEncode 0x08 0 [.ioFail]).env.snk (offeredEncode 0x08 0 [.ioFail]).env.snkThen
        (List.replicate 0 SnkAnswer.ok ++ [SnkAnswer.ioFail]) []) ∧
    (let s := thenAnswers .endInput .ioFail
        (offeredEncode 0x09 0x8000000000000000#64 (List.replicate 9 SnkAnswer.ok));
      s.Offers ⟨0x09#8, 0x8000000000000000#64⟩ [] ∧
      decode ⟨0x09#8, 0x8000000000000000#64⟩ = .ok (.vencu64 0x8000000000000000#64) ∧
      9 < varintLen 0x8000000000000000#64 ∧
      Gives s.env.snk s.env.snkThen (List.replicate 9 SnkAnswer.ok ++ [SnkAnswer.ioFail]) []) := by decide

/-- SinkFailureEndsEncode, its second clause: an encode that a write ends, well and badly. -/
theorem witness_SinkFailureEndsEncode_ends :
    (∃ t, fire (.write .ok) (encoding 0x8 0x7F 0 []) = .next t ∧ t.blk.phase = .resp) ∧
    (∃ t, fire (.write .ioFail) (encoding 0x8 0x7F 0 []) = .next t ∧ t.blk.phase = .resp) :=
  ⟨⟨_, rfl, rfl⟩, ⟨_, rfl, rfl⟩⟩

/-- ZeroIsOneZeroByte: each of the four operations offered, with a sink that takes one byte. -/
theorem witness_ZeroIsOneZeroByte :
    (∀ cmd ∈ ([0x08, 0x09, 0x0A, 0x0B] : List Byte), (offeredEncode cmd 0 [.ok]).Offers ⟨cmd, 0#64⟩ [] ∧
      Gives (offeredEncode cmd 0 [.ok]).env.snk (offeredEncode cmd 0 [.ok]).env.snkThen [SnkAnswer.ok] []) ∧
    decode ⟨0x08#8, 0#64⟩ = .ok (.vencu32 0#64) ∧ decode ⟨0x09#8, 0#64⟩ = .ok (.vencu64 0#64) ∧
    decode ⟨0x0A#8, 0#64⟩ = .ok (.vencs32 0#64) ∧ decode ⟨0x0B#8, 0#64⟩ = .ok (.vencs64 0#64) := by decide

/-- VarintIsTheOnlyCanonicalForm: the two sides at 0 and at 300, and a non-canonical form of 5 that neither side admits. -/
theorem witness_VarintIsTheOnlyCanonicalForm :
    varintBytes 0#64 = [] ++ [0x00#8] ∧ varintBytes 300#64 = [0xAC#8] ++ [0x02#8] ∧
    varintBytes 5#64 ≠ [0x85#8] ++ [0x00#8] ∧ groupSum [0x85#8, 0x00#8] = 5 := by decide

/-- DecodeStarts: the ends of the range of decode bytes. -/
theorem witness_DecodeStarts :
    0x0C ≤ (0x0C#8).toNat ∧ (0x0C#8).toNat ≤ 0x0F ∧ 0x0C ≤ (0x0F#8).toNat ∧ (0x0F#8).toNat ≤ 0x0F := by decide

/-- ReadStepRule: the last group of each width and a group before it, with each value of bit 7. -/
theorem witness_ReadStepRule :
    ((decoding 0xC 0 4 []).blk.phase = .dec ∧ (decoding 0xC 0 4 []).blk.op.getLsbD 0 = false ∧
      7 * (decoding 0xC 0 4 []).blk.cnt.toNat < 32 ∧ (decoding 0xC 0 4 []).blk.cnt.toNat + 1 = 5) ∧
    ((decoding 0xF 0 9 []).blk.phase = .dec ∧ (decoding 0xF 0 9 []).blk.op.getLsbD 0 = true ∧
      7 * (decoding 0xF 0 9 []).blk.cnt.toNat < 64 ∧ (decoding 0xF 0 9 []).blk.cnt.toNat + 1 = 10) ∧
    (decoding 0xC 0 0 []).blk.cnt.toNat + 1 ≠ 5 ∧ (0x7F#8).getLsbD 7 = false ∧ (0x80#8).getLsbD 7 = true := by decide

/-- ReadByteAddsItsGroup: the last group that leaves a decode in DEC, at each width. -/
theorem witness_ReadByteAddsItsGroup :
    (decoding 0xC 0x1FFFFF 3 []).Inv ∧ (decoding 0xD 0x00FFFFFFFFFFFFFF 8 []).Inv ∧
    (∃ t, fire (.read (.byte 0xFF#8)) (decoding 0xC 0x1FFFFF 3 []) = .next t ∧ t.blk.phase = .dec) ∧
    (∃ t, fire (.read (.byte 0xFF#8)) (decoding 0xD 0x00FFFFFFFFFFFFFF 8 []) = .next t ∧ t.blk.phase = .dec) :=
  ⟨by decide, by decide, ⟨_, rfl, rfl⟩, ⟨_, rfl, rfl⟩⟩

/-- The machine with a decode offered and the source's answers. -/
def offeredDecode (cmd : Byte) (src : List SrcAnswer) : State :=
  { offered cmd 0 with env := { (offered cmd 0).env with src := src } }

/-- DecodeClosedForm, first sentence: one byte, and the most bytes of a 64-bit decode. -/
theorem witness_DecodeCompletes :
    (let s := offeredDecode 0x0C [.byte 0x05];
      s.Offers ⟨0x0C#8, 0#64⟩ [] ∧ decode ⟨0x0C#8, 0#64⟩ = .ok .vdecu32 ∧
      contFlag 0x05#8 = false ∧ ([] : List Byte).length + 1 ≤ maxBytes 32 ∧
      Gives s.env.src s.env.srcThen (([] ++ [0x05#8]).map SrcAnswer.byte) []) ∧
    (let s := offeredDecode 0x0F (List.replicate 9 (SrcAnswer.byte 0xFF) ++ [SrcAnswer.byte 0x01]);
      (∀ b ∈ List.replicate 9 (0xFF#8 : Byte), contFlag b = true) ∧ contFlag 0x01#8 = false ∧
      (List.replicate 9 (0xFF#8 : Byte)).length + 1 ≤ maxBytes 64 ∧ decode ⟨0x0F#8, 0#64⟩ = .ok .vdecs64 ∧
      s.Offers ⟨0x0F#8, 0#64⟩ [] ∧
      Gives s.env.src s.env.srcThen ((List.replicate 9 0xFF#8 ++ [0x01#8]).map SrcAnswer.byte) []) := by decide

/-- DecodeClosedForm, second sentence: MAX_BYTES(32) bytes with bit 7 set, and one more in the source. -/
theorem witness_DecodeOverflows :
    (let s := offeredDecode 0x0C (List.replicate 6 (SrcAnswer.byte 0x80));
      s.Offers ⟨0x0C#8, 0#64⟩ [] ∧ decode ⟨0x0C#8, 0#64⟩ = .ok .vdecu32 ∧
      (∀ b ∈ List.replicate 4 (0x80#8 : Byte) ++ [0x80#8], contFlag b = true) ∧
      (List.replicate 4 (0x80#8 : Byte)).length + 1 = maxBytes 32 ∧
      Gives s.env.src s.env.srcThen ((List.replicate 4 0x80#8 ++ [0x80#8]).map SrcAnswer.byte)
        [SrcAnswer.byte 0x80]) := by decide

/-- DecodeClosedForm, third sentence: End at the first request, by the constant after an empty list as in
95_test_vectors.md, and IoFail at the last. -/
theorem witness_DecodeCutShort :
    (let s := thenAnswers .endInput .ok (offeredDecode 0x0E []);
      s.Offers ⟨0x0E#8, 0#64⟩ [] ∧ decode ⟨0x0E#8, 0#64⟩ = .ok .vdecs32 ∧
      ([] : List Byte).length < maxBytes 32 ∧
      Gives s.env.src s.env.srcThen (([] : List Byte).map SrcAnswer.byte ++ [SrcAnswer.endInput]) []) ∧
    (let s := offeredDecode 0x0D (List.replicate 9 (SrcAnswer.byte 0x80) ++ [SrcAnswer.ioFail]);
      (∀ b ∈ List.replicate 9 (0x80#8 : Byte), contFlag b = true) ∧
      (List.replicate 9 (0x80#8 : Byte)).length < maxBytes 64 ∧ decode ⟨0x0D#8, 0#64⟩ = .ok .vdecu64 ∧
      s.Offers ⟨0x0D#8, 0#64⟩ [] ∧
      Gives s.env.src s.env.srcThen ((List.replicate 9 0x80#8).map SrcAnswer.byte ++ [SrcAnswer.ioFail]) []) := by
  decide

/-- BitsBeyondWidthDiscarded: the last group of each width, and a terminator with every payload bit set. -/
theorem witness_BitsBeyondWidthDiscarded :
    ((decoding 0xC 0 4 []).blk.phase = .dec ∧ (0x7F#8).getLsbD 7 = false) ∧
    ((decoding 0xC 0 4 []).blk.op.getLsbD 0 = false ∧ (decoding 0xC 0 4 []).blk.cnt = 4#4) ∧
    ((decoding 0xD 0 9 []).blk.phase = .dec ∧ (decoding 0xD 0 9 []).blk.op.getLsbD 0 = true ∧
      (decoding 0xD 0 9 []).blk.cnt = 9#4) := by decide

/-- OverflowFallsAtLastGroup: a reachable state at the last group, and a read of it. -/
theorem witness_OverflowFallsAtLastGroup :
    (decoding 0xC 0x0FFFFFFF 4 []).Inv ∧
    (∃ t, fire (.read (.byte 0x80#8)) (decoding 0xC 0x0FFFFFFF 4 []) = .next t ∧ t.blk.phase = .resp) :=
  ⟨by decide, ⟨_, rfl, rfl⟩⟩

/-- RoundTripRecoversOperand: an encode offered with a sink that answers Ok for good, and a decode of its byte. -/
theorem witness_RoundTripRecoversOperand :
    (let s := thenAnswers .endInput .ok (offeredEncode 0x0A 2 []);
      s.Offers ⟨0x0A#8, 2#64⟩ [] ∧ decode ⟨0x0A#8, 2#64⟩ = .ok (.vencs32 2#64) ∧
      Gives s.env.snk s.env.snkThen (List.replicate 10 SnkAnswer.ok) []) ∧
    (let s := thenAnswers .endInput .ok (offeredDecode 0x0E [.byte 0x04]);
      s.Offers ⟨0x0E#8, 0#64⟩ [] ∧ decode ⟨0x0E#8, 0#64⟩ = .ok .vdecs32 ∧
      Gives s.env.src s.env.srcThen ([0x04#8].map SrcAnswer.byte) []) := by decide

/-- StepFollowsEnvironment: each clause's environment: `rst` high, a list, an empty list with a constant, a command. -/
theorem witness_StepFollowsEnvironment :
    ({ State.reset with env := { Env.quiet with rst := [true] } } : State).env.rstHigh = true ∧
    ((offered 0x03 5).env.rstHigh = false ∧ (offered 0x03 5).blk.phase = .idle ∧
      (offered 0x03 5).env.cmds = ⟨0x03#8, 5#64⟩ :: []) ∧
    ((encoding 0x8 5 0 [.ok]).blk.phase = .enc ∧ (encoding 0x8 5 0 [.ok]).env.snk = SnkAnswer.ok :: []) ∧
    (let s := thenAnswers .endInput .ok (encoding 0x8 5 0 []);
      s.blk.phase = .enc ∧ s.env.snk = [] ∧ s.env.snkThen = some SnkAnswer.ok) ∧
    ((decoding 0xC 0 0 [.ioFail]).blk.phase = .dec ∧ (decoding 0xC 0 0 [.ioFail]).env.src = SrcAnswer.ioFail :: []) ∧
    (let s := thenAnswers .endInput .ok (decoding 0xC 0 0 []);
      s.blk.phase = .dec ∧ s.env.src = [] ∧ s.env.srcThen = some SrcAnswer.endInput) ∧
    ((responding 0xC 2 0 5).blk.phase = .resp ∧ (responding 0xC 2 0 5).env.rspReady = true) := by decide

/-- StatusByKindOfStep: a step of each kind that enters RESP, one for each status. -/
theorem witness_StatusByKindOfStep :
    (∃ t, fire (.accept ⟨0x10#8, 0#64⟩) State.reset = .next t ∧ t.blk.phase = .resp) ∧
    (∃ t, fire (.accept ⟨0x07#8, 0#64⟩) State.reset = .next t ∧ t.blk.phase = .resp) ∧
    (∃ t, fire (.write .ioFail) (encoding 0x8 5 0 []) = .next t ∧ t.blk.phase = .resp) ∧
    (∃ t, fire (.write .ok) (encoding 0x8 5 0 []) = .next t ∧ t.blk.phase = .resp) ∧
    (∃ t, fire (.read .endInput) (decoding 0xC 0 0 []) = .next t ∧ t.blk.phase = .resp) ∧
    (∃ t, fire (.read .ioFail) (decoding 0xC 0 0 []) = .next t ∧ t.blk.phase = .resp) ∧
    (∃ t, fire (.read (.byte 0x00#8)) (decoding 0xC 0 0 []) = .next t ∧ t.blk.phase = .resp) ∧
    (∃ t, fire (.read (.byte 0x80#8)) (decoding 0xC 0 4 []) = .next t ∧ t.blk.phase = .resp) :=
  ⟨⟨_, rfl, rfl⟩, ⟨_, rfl, rfl⟩, ⟨_, rfl, rfl⟩, ⟨_, rfl, rfl⟩, ⟨_, rfl, rfl⟩, ⟨_, rfl, rfl⟩, ⟨_, rfl, rfl⟩,
    ⟨_, rfl, rfl⟩⟩

/-- ErrorEntryWritesOnlyTheResponse: a step that ends a decode in Overflow. -/
theorem witness_ErrorEntryWritesOnlyTheResponse :
    ∃ t, step (decoding 0xC 0x0FFFFFFF 4 [.byte 0x80]) = .next t ∧
      (decoding 0xC 0x0FFFFFFF 4 [.byte 0x80]).env.rstHigh = false ∧
      (decoding 0xC 0x0FFFFFFF 4 [.byte 0x80]).blk.phase ≠ .resp ∧ t.blk.phase = .resp ∧ t.blk.rspStatus ≠ 0#3 :=
  ⟨_, rfl, by decide, by decide, rfl, by decide⟩

/-- ResponseNeverProducedIsRefused: the least status and the least count that the block never produces. -/
theorem witness_ResponseNeverProducedIsRefused :
    ((responding 0xC 5 0 0).blk.phase = .resp ∧ 5 ≤ (responding 0xC 5 0 0).blk.rspStatus.toNat) ∧
    ((responding 0xC 0 0 11).blk.phase = .resp ∧ 11 ≤ (responding 0xC 0 0 11).blk.rspCount.toNat) := by decide

/-- HiddenStateIsUnobservable: two different blocks in IDLE that look alike, and a step of the first. -/
theorem witness_HiddenStateIsUnobservable :
    (let s := offered 0x0C 0
      let s' := { s with blk := { s.blk with op := 0x3#4, acc := 7#64, cnt := 2#4, rspValue := 9#64 } }
      s.blk.Alike s'.blk ∧ s.env = s'.env ∧ ∃ t, step s = .next t) :=
  ⟨⟨rfl, fun h => h.elim (fun h => nomatch h) (fun h => nomatch h), fun h => nomatch h⟩, rfl, ⟨_, rfl⟩⟩

/-- ResetClearsEveryRegister: `rst` high in the middle of a decode. -/
theorem witness_ResetClearsEveryRegister :
    ({ decoding 0xC 5 2 [] with env := { Env.quiet with rst := [true] } } : State).env.rst = true :: [] := rfl

/-- OperationEndsWithinBound: an offered command and an environment that answers every request. -/
theorem witness_OperationEndsWithinBound :
    (let s : State :=
      { offered 0x0F 0 with env := { (offered 0x0F 0).env with srcThen := some .endInput, snkThen := some .ok } };
      s.Offers ⟨0x0F#8, 0#64⟩ [] ∧ s.env.srcThen.isSome = true ∧ s.env.snkThen.isSome = true) := by decide

/-- Inputs at an edge with every request answered. -/
def answering (rst : Bool) (kind : BitVec 2) : PortIn :=
  { rst := rst, cmdValid := true, cmdOp := 0x0C, cmdArg := 0, rspReady := true, srcAck := true, srcKind := kind,
    srcData := 0x05, snkAck := true, snkErr := false }

/-- EdgeCompletesOneHandshake and AnswerEncodings: an edge with `rst` high, each answer kind in DEC, both in ENC. -/
theorem witness_edges :
    (answering true 0).rst = true ∧ (answering false 3).rst = false ∧ (answering false 3).srcAck = true ∧
    (answering false 0).srcKind = 0#2 ∧ (answering false 1).srcKind = 1#2 ∧ (answering false 2).srcKind = 2#2 ∧
    (answering false 3).srcKind = 3#2 ∧ (decoding 0xC 0 0 []).blk.phase = .dec ∧
    ({ answering false 0 with srcAck := false } : PortIn).srcAck = false ∧ (encoding 0x8 0 0 []).blk.phase = .enc ∧
    (answering false 0).snkAck = true ∧ (answering false 0).snkErr = false ∧
    ({ answering false 0 with snkErr := true } : PortIn).snkErr = true := by decide

end Sys2Proof.Tests
end

section
/-! SUPPORT. Which step the environment offers, when each kind of step is enabled, and what a step does to one
register. -/

namespace Sys2Proof.Machine

open Sys2Proof

/-! ## The coming step -/

theorem step_of_offer {s : State} {e : Event} {v : Env} (h : s.offer = .event e v) :
    step s = fire e { s with env := v } := by
  unfold step takeOffer; rw [h]

theorem offer_of_high {s : State} (hr : s.env.rstHigh = true) : s.offer = .event .reset s.env.passRst := by
  unfold State.offer; rw [hr]; rfl

theorem offer_of_idle {s : State} {c : Command} {v : Env} (hr : s.env.rstHigh = false) (hp : s.blk.phase = .idle)
    (hn : s.env.passRst.nextCmd = some (c, v)) : s.offer = .event (.accept c) v := by
  unfold State.offer; rw [hr, hp, hn]; rfl

theorem offer_of_enc {s : State} {a : SnkAnswer} {v : Env} (hr : s.env.rstHigh = false) (hp : s.blk.phase = .enc)
    (hn : s.env.passRst.nextSnk = some (a, v)) : s.offer = .event (.write a) v := by
  unfold State.offer; rw [hr, hp, hn]; rfl

theorem offer_of_dec {s : State} {a : SrcAnswer} {v : Env} (hr : s.env.rstHigh = false) (hp : s.blk.phase = .dec)
    (hn : s.env.passRst.nextSrc = some (a, v)) : s.offer = .event (.read a) v := by
  unfold State.offer; rw [hr, hp, hn]; rfl

theorem offer_of_resp {s : State} (hr : s.env.rstHigh = false) (hp : s.blk.phase = .resp)
    (hready : s.env.rspReady = true) : s.offer = .event .deliver s.env.passRst := by
  unfold State.offer; rw [hr, hp, hready]; rfl

/-- Only PHASE and the environment say which step comes next. -/
theorem offer_congr {s s' : State} (hp : s.blk.phase = s'.blk.phase) (he : s.env = s'.env) : s.offer = s'.offer := by
  unfold State.offer; rw [hp, he]

/-- A step that answers a next state is the offered event, fired. -/
theorem offer_of_step_next {s t : State} (h : step s = .next t) :
    ∃ e v, s.offer = .event e v ∧ fire e { s with env := v } = .next t := by
  unfold step takeOffer at h
  cases ho : s.offer with
  | event e v => rw [ho] at h; exact ⟨e, v, rfl, h⟩
  | wait why => rw [ho] at h; cases h

/-- The coming step is Reset exactly when `rst` is high, and no part of the environment but the commands, the answers
and the level of `rst` is used up by it. -/
theorem offer_eq_event {s : State} {e : Event} {v : Env} (h : s.offer = .event e v) :
    (e = .reset ↔ s.env.rstHigh = true) ∧
      v = { s.env with cmds := v.cmds, src := v.src, snk := v.snk, rst := s.env.rst.tail } := by
  unfold State.offer at h
  cases hr : s.env.rstHigh <;> rw [hr] at h
  case true => cases h; exact ⟨by simp, rfl⟩
  case false =>
    cases hp : s.blk.phase <;> rw [hp] at h <;> simp only [Bool.false_eq_true, if_false] at h
    case idle =>
      cases hn : s.env.passRst.nextCmd <;> rw [hn] at h <;> cases h
      obtain ⟨-, hv⟩ := nextCmd_eq_some hn
      exact ⟨by simp, by rw [hv]; rfl⟩
    case enc =>
      cases hn : s.env.passRst.nextSnk <;> rw [hn] at h <;> cases h
      obtain ⟨-, hv⟩ | ⟨-, -, hv⟩ := nextSnk_eq_some hn <;> exact ⟨by simp, by rw [hv]; rfl⟩
    case dec =>
      cases hn : s.env.passRst.nextSrc <;> rw [hn] at h <;> cases h
      obtain ⟨-, hv⟩ | ⟨-, -, hv⟩ := nextSrc_eq_some hn <;> exact ⟨by simp, by rw [hv]; rfl⟩
    case resp =>
      cases hready : s.env.rspReady <;> rw [hready] at h <;> cases h
      exact ⟨by simp, rfl⟩

/-! ## The answer the environment gives next -/

theorem nextSnk_of_cons {v : Env} {a : SnkAnswer} {more : List SnkAnswer} (h : v.snk = a :: more) :
    v.nextSnk = some (a, { v with snk := more }) := by
  unfold Env.nextSnk; rw [h]

theorem nextSnk_of_nil {v : Env} {a : SnkAnswer} (h : v.snk = []) (ht : v.snkThen = some a) :
    v.nextSnk = some (a, v) := by
  unfold Env.nextSnk; rw [h, ht]; rfl

theorem nextSrc_of_cons {v : Env} {a : SrcAnswer} {more : List SrcAnswer} (h : v.src = a :: more) :
    v.nextSrc = some (a, { v with src := more }) := by
  unfold Env.nextSrc; rw [h]

theorem nextSrc_of_nil {v : Env} {a : SrcAnswer} (h : v.src = []) (ht : v.srcThen = some a) :
    v.nextSrc = some (a, v) := by
  unfold Env.nextSrc; rw [h, ht]; rfl

theorem nextCmd_of_cons {v : Env} {c : Command} {rest : List Command} (h : v.cmds = c :: rest) :
    v.nextCmd = some (c, { v with cmds := rest }) := by
  unfold Env.nextCmd; rw [h]

/-! ## Each kind of step is enabled in its phase (R21) -/

theorem fire_accept_enabled_iff (c : Command) (s : State) :
    (∃ t, fire (.accept c) s = .next t) ↔ s.blk.phase = .idle := by
  rw [fire_accept]
  exact ⟨fun ⟨_, h⟩ => (acceptStep_next h).1, fun hp => ⟨_, acceptStep_of_idle hp⟩⟩

theorem fire_write_enabled_iff (a : SnkAnswer) (s : State) :
    (∃ t, fire (.write a) s = .next t) ↔ s.blk.phase = .enc :=
  ⟨fun ⟨_, h⟩ => (writeStep_next h).1, fun hp => ⟨_, writeStep_of_enc hp⟩⟩

theorem fire_read_enabled_iff (a : SrcAnswer) (s : State) :
    (∃ t, fire (.read a) s = .next t) ↔ s.blk.phase = .dec :=
  ⟨fun ⟨_, h⟩ => (readStep_next h).1, fun hp => ⟨_, readStep_of_dec hp⟩⟩

/-- A response the block can produce is always delivered. -/
theorem fire_deliver_enabled_iff {s : State} (hl : s.blk.RspLegal) :
    (∃ t, fire .deliver s = .next t) ↔ s.blk.phase = .resp :=
  ⟨fun ⟨_, h⟩ => (deliver_next h).1, fun hp => ⟨_, deliver_of_resp hp ((response_produced_iff _).2 hl)⟩⟩

theorem acceptCommand_of_ok {c : Command} {i : Instr} (hd : decode c = .ok i) (s : State) :
    acceptCommand c s = exec i s := by
  unfold acceptCommand; rw [hd]

/-! ## One register at a time -/

theorem phase_of_ne_idle {p : Phase} (h : p ≠ .idle) : p = .enc ∨ p = .dec ∨ p = .resp := by
  cases p with
  | idle => exact absurd rfl h
  | enc | dec | resp => decide

/-- A byte the sink took leaves the encode in ENC or ends it. -/
theorem encAdvance_phase {b : Block} (hp : b.phase = .enc) :
    (encAdvance b).phase = .enc ∨ (encAdvance b).phase = .resp := by
  obtain ⟨-, h⟩ | ⟨-, h⟩ := encAdvance_cases b <;> rw [h]
  · exact .inr rfl
  · exact .inl hp

/-- A byte from the source leaves the decode in DEC or ends it. -/
theorem decAdvance_phase {w : Nat} {x : Byte} {b : Block} (hp : b.phase = .dec) :
    (decAdvance w x b).phase = .dec ∨ (decAdvance w x b).phase = .resp := by
  obtain ⟨-, h⟩ | ⟨-, -, h⟩ | ⟨-, -, h⟩ := decAdvance_cases w x b <;> rw [h]
  · exact .inr rfl
  · exact .inr rfl
  · exact .inl hp

@[simp] theorem encAdvance_op (b : Block) : (encAdvance b).op = b.op := by
  obtain ⟨-, h⟩ | ⟨-, h⟩ := encAdvance_cases b <;> rw [h]
  exact respond_op ..

@[simp] theorem decAdvance_op (w : Nat) (x : Byte) (b : Block) : (decAdvance w x b).op = b.op := by
  obtain ⟨-, h⟩ | ⟨-, -, h⟩ | ⟨-, -, h⟩ := decAdvance_cases w x b <;> rw [h]
  · exact respond_op ..
  · exact raise_op ..

/-- An operation's `Accept` step answers at once or leaves the response registers alone. -/
theorem acceptEffect_response (i : Instr) (b : Block) :
    (acceptEffect i b).phase = .resp ∨ (acceptEffect i b).response = b.response := by
  cases i with
  | zzenc8 a | zzenc16 a | zzenc32 a | zzenc64 a | zzdec8 a | zzdec16 a | zzdec32 a | zzdec64 a => exact .inl rfl
  | vencu32 a | vencu64 a | vencs32 a | vencs64 a | vdecu32 | vdecu64 | vdecs32 | vdecs64 => exact .inr rfl

theorem encAdvance_response (b : Block) :
    (encAdvance b).phase = .resp ∨ (encAdvance b).response = b.response := by
  obtain ⟨-, h⟩ | ⟨-, h⟩ := encAdvance_cases b <;> rw [h]
  · exact .inl rfl
  · exact .inr rfl

theorem decAdvance_response (w : Nat) (x : Byte) (b : Block) :
    (decAdvance w x b).phase = .resp ∨ (decAdvance w x b).response = b.response := by
  obtain ⟨-, h⟩ | ⟨-, -, h⟩ | ⟨-, -, h⟩ := decAdvance_cases w x b <;> rw [h]
  · exact .inl rfl
  · exact .inl rfl
  · exact .inr rfl

end Sys2Proof.Machine
end

section
/-! SUPPORT. The invariants of reachable states, kept by every effect on the registers (R35, R33). -/

namespace Sys2Proof.Machine

open Sys2Proof

/-- One more byte is permitted exactly while its first bit lies within the width (R7). -/
theorem lt_maxBytes_iff {n w : Nat} : n < maxBytes w ↔ 7 * n < w := by
  unfold maxBytes Config.groupBits; omega

theorem maxBytes_opWidth_le (op : BitVec 4) : maxBytes (opWidth op) ≤ 10 := by
  have h := opWidth_le op
  unfold maxBytes Config.groupBits; omega

theorem statusCode_le (st : Status) : st.code.toNat ≤ 4 := by
  cases st with
  | ok => decide
  | err e => cases e <;> decide

/-- A varint operation is at least 32 bits wide (R61). -/
theorem le_opWidth_of_varint {op : BitVec 4} (h : isVarint op = true) : 32 ≤ opWidth op := by
  rw [opWidth_of_varint h]
  obtain ⟨-, hw⟩ | ⟨-, hw⟩ := varintWidth_cases op <;> omega

/-- A varint operation transfers at least one byte. -/
theorem maxBytes_pos_of_varint {op : BitVec 4} (h : isVarint op = true) : 0 < maxBytes (opWidth op) :=
  lt_maxBytes_iff.2 (by have := le_opWidth_of_varint h; omega)

/-- A result word has no bit above the width of its result (R65). -/
theorem resultWord_lt {w : Nat} (r : BitVec w) : (resultWord r).toNat < 2 ^ w := by
  unfold resultWord
  rw [BitVec.toNat_setWidth]
  exact (Nat.mod_le _ _).trans_lt r.isLt

/-- A response with no byte transferred meets the invariants when its value fits the width. -/
theorem inv_of_respond_zero {b : Block} {v : Env} {st : Status} {x : Word} (hx : x.toNat < 2 ^ opWidth b.op) :
    State.Inv { blk := b.respond st x 0#4, env := v } :=
  inv_of_resp rfl ⟨statusCode_le st, by simp⟩ hx (.inl rfl)

/-- A varint operation's response meets the invariants when its value fits the width and its count MAX_BYTES. -/
theorem inv_of_respond {b : Block} {v : Env} {st : Status} {x : Word} {n : BitVec 4} (hop : isVarint b.op = true)
    (hst : st ≠ .err .illegalCommand) (hx : x.toNat < 2 ^ opWidth b.op) (hn : n.toNat ≤ maxBytes (opWidth b.op)) :
    State.Inv { blk := b.respond st x n, env := v } := by
  have hcode : st.code ≠ 4#3 := by
    cases st with
    | ok => decide
    | err e =>
      cases e with
      | illegalCommand => exact absurd rfl hst
      | endOfInput | overflow | ioFailure => decide
  exact inv_of_resp rfl ⟨statusCode_le st, hn.trans (maxBytes_opWidth_le _)⟩ hx (.inr ⟨hcode, hop, hn⟩)

/-- An error of a varint operation has value 0, so only its count is to be bounded. -/
theorem inv_of_raise {b : Block} {v : Env} {e : Err} {n : BitVec 4} (hop : isVarint b.op = true)
    (he : e ≠ .illegalCommand) (hn : n.toNat ≤ maxBytes (opWidth b.op)) :
    State.Inv { blk := b.raise e n, env := v } :=
  inv_of_respond hop (by simpa using he) (by simp) hn

theorem inv_of_zigzagDone {w : Nat} {code : BitVec 4} (hw : opWidth code = w) (r : BitVec w) (b : Block) (v : Env) :
    State.Inv { blk := zigzagDone code (resultWord r) b, env := v } :=
  inv_of_respond_zero (b := { b with op := code }) (by subst hw; exact resultWord_lt r)

theorem inv_of_startEncode {w : Nat} {code : BitVec 4} (hop : isVarint code = true ∧ isDecode code = false)
    (hw : opWidth code = w) (r : BitVec w) {b : Block} (hl : b.RspLegal) (v : Env) :
    State.Inv { blk := startEncode code (resultWord r) b, env := v } := by
  subst hw
  exact inv_of_enc rfl hl fun _ =>
    ⟨hop.1, hop.2, resultWord_lt r, maxBytes_pos_of_varint hop.1, fun _ => resultWord_lt r⟩

theorem inv_of_startDecode {code : BitVec 4} (hop : isVarint code = true ∧ isDecode code = true) {b : Block}
    (hl : b.RspLegal) (v : Env) : State.Inv { blk := startDecode code b, env := v } :=
  inv_of_dec rfl hl fun _ => ⟨hop.1, hop.2, maxBytes_pos_of_varint hop.1, by simp⟩

/-- Every operation's `Accept` step leads to a state that meets the invariants (R92, R103, R120). -/
theorem inv_of_acceptEffect (i : Instr) {b : Block} (hl : b.RspLegal) (v : Env) :
    State.Inv { blk := acceptEffect i b, env := v } := by
  cases i with
  | zzenc8 a | zzenc16 a | zzenc32 a | zzenc64 a | zzdec8 a | zzdec16 a | zzdec32 a | zzdec64 a =>
    exact inv_of_zigzagDone rfl _ b v
  | vencu32 a | vencu64 a | vencs32 a | vencs64 a => exact inv_of_startEncode (by decide) rfl _ hl v
  | vdecu32 | vdecu64 | vdecs32 | vdecs64 => exact inv_of_startDecode (by decide) hl v

/-- Below MAX_BYTES, CNT steps by one without wrapping. -/
theorem cnt_succ_of_lt_maxBytes {op n : BitVec 4} (h : n.toNat < maxBytes (opWidth op)) :
    (n + 1#4).toNat = n.toNat + 1 :=
  cnt_succ_toNat (by have := maxBytes_opWidth_le op; omega)

/-- A byte the sink took keeps the invariants: what remains after it fits the bytes left (R100). -/
theorem inv_of_encAdvance {b : Block} (hp : b.phase = .enc) (hl : b.RspLegal) (he : b.EncInv) (v : Env) :
    State.Inv { blk := encAdvance b, env := v } := by
  obtain ⟨hop, hd, -, hcnt, hacc⟩ := he hp
  have hsucc := cnt_succ_of_lt_maxBytes hcnt
  obtain ⟨-, h⟩ | ⟨hrest, h⟩ := encAdvance_cases b <;> rw [h]
  · exact inv_of_respond hop (by simp) (by simp) (by omega)
  · have hbig : 2 ^ 7 ≤ b.acc.toNat := by rw [Ne, restOf_eq_zero_iff] at hrest; omega
    have hfit := hacc (lt_maxBytes_iff.1 hcnt)
    have hmore : 7 < opWidth b.op - 7 * b.cnt.toNat :=
      (Nat.pow_lt_pow_iff_right (by decide)).1 (hbig.trans_lt hfit)
    have hrestlt : (restOf b.acc).toNat < 2 ^ (opWidth b.op - 7 * (b.cnt.toNat + 1)) := by
      rw [restOf_toNat, Nat.div_lt_iff_lt_mul (by decide), ← pow_add]
      exact hfit.trans_le (Nat.pow_le_pow_right (by decide) (by omega))
    refine inv_of_enc hp hl fun _ => ⟨hop, hd, ?_, lt_maxBytes_iff.2 ?_, fun _ => ?_⟩
    · exact hrestlt.trans_le (Nat.pow_le_pow_right (by decide) (Nat.sub_le _ _))
    · change 7 * (b.cnt + 1#4).toNat < opWidth b.op
      omega
    · change (restOf b.acc).toNat < 2 ^ (opWidth b.op - 7 * (b.cnt + 1#4).toNat)
      rwa [hsucc]

/-- In a decode that meets the invariants, one more group lies within the groups read so far and it (R121). -/
theorem decAccumulate_lt {b : Block} (x : Byte) (hop : isVarint b.op = true) (hn : 7 * b.cnt.toNat < opWidth b.op)
    (hacc : b.acc.toNat < 2 ^ min (opWidth b.op) (7 * b.cnt.toNat)) :
    (decAccumulate (opWidth b.op) x b).toNat < 2 ^ (7 * (b.cnt.toNat + 1)) := by
  rw [Nat.min_eq_right hn.le] at hacc
  rw [decAccumulate_toNat x (opWidth_le _) (by have := le_opWidth_of_varint hop; omega) hn hacc]
  refine (Nat.mod_le _ _).trans_lt ?_
  have hx : x.toNat % 2 ^ 7 + 1 ≤ 2 ^ 7 := Nat.mod_lt _ (by decide)
  calc b.acc.toNat + x.toNat % 2 ^ 7 * 2 ^ (7 * b.cnt.toNat)
      < (x.toNat % 2 ^ 7 + 1) * 2 ^ (7 * b.cnt.toNat) := by
        rw [Nat.add_comm, Nat.add_one_mul (_ % _)]; exact Nat.add_lt_add_left hacc _
    _ ≤ 2 ^ 7 * 2 ^ (7 * b.cnt.toNat) := Nat.mul_le_mul_right _ hx
    _ = 2 ^ (7 * (b.cnt.toNat + 1)) := by rw [← pow_add, Nat.mul_succ, Nat.add_comm]

/-- A byte from the source keeps the invariants (R121, R123). -/
theorem inv_of_decAdvance {b : Block} (hp : b.phase = .dec) (hl : b.RspLegal) (hd : b.DecInv) (x : Byte) (v : Env) :
    State.Inv { blk := decAdvance (varintWidth b.op) x b, env := v } := by
  obtain ⟨hop, hdec, hcnt, hacc⟩ := hd hp
  have hsucc := cnt_succ_of_lt_maxBytes hcnt
  rw [← opWidth_of_varint hop]
  obtain ⟨-, h⟩ | ⟨-, hlast, h⟩ | ⟨-, hnot, h⟩ := decAdvance_cases (opWidth b.op) x b <;> rw [h]
  · exact inv_of_respond hop (by simp) (resultWord_lt _) (by omega)
  · exact inv_of_raise hop (by simp) hlast.le
  · have hlt := decAccumulate_lt x hop (lt_maxBytes_iff.1 hcnt) hacc
    refine inv_of_dec hp hl fun _ => ⟨hop, hdec, ?_, ?_⟩
    · change (b.cnt + 1#4).toNat < maxBytes (opWidth b.op)
      omega
    · change (resultWord (decAccumulate (opWidth b.op) x b)).toNat < 2 ^ min (opWidth b.op) (7 * (b.cnt + 1#4).toNat)
      rw [hsucc]
      obtain hmin | hmin := min_choice (opWidth b.op) (7 * (b.cnt.toNat + 1)) <;> rw [hmin]
      · exact resultWord_lt _
      · rwa [resultWord_toNat (opWidth_le _)]

theorem inv_of_reset (v : Env) : State.Inv { blk := Block.reset, env := v } :=
  inv_of_idle rfl (show Block.reset.RspLegal by decide)

/-- Settles O18: the reset block is in IDLE with the response registers at 0. -/
theorem resetMeetsInvariants : Obligations.ResetMeetsInvariants := ⟨inv_of_reset _, inv_of_reset⟩

/-- Settles O17, by the kind of step, with one lemma for what each kind writes. -/
theorem stepKeepsInvariants : Obligations.StepKeepsInvariants := by
  intro s t ⟨hl, he, hd, _⟩ h
  obtain ⟨-, rfl⟩ | ⟨-, -, c, v, -, ⟨i, -, rfl⟩ | ⟨-, rfl⟩⟩ | ⟨-, hp, a, v, -, ⟨-, rfl⟩ | ⟨-, rfl⟩⟩ |
    ⟨-, hp, a, v, -, ⟨-, rfl⟩ | ⟨-, rfl⟩ | ⟨x, -, rfl⟩⟩ | ⟨-, -, -, -, rfl⟩ := step_next h
  · exact inv_of_reset _
  · exact inv_of_acceptEffect i hl v
  · exact inv_of_respond_zero (by simp)
  · obtain ⟨hop, -, -, hcnt, -⟩ := he hp
    exact inv_of_raise hop (by simp) hcnt.le
  · exact inv_of_encAdvance hp hl he _
  · obtain ⟨hop, -, hcnt, -⟩ := hd hp
    exact inv_of_raise hop (by simp) hcnt.le
  · obtain ⟨hop, -, hcnt, -⟩ := hd hp
    exact inv_of_raise hop (by simp) hcnt.le
  · exact inv_of_decAdvance hp hl hd x v
  · exact inv_of_idle rfl hl

end Sys2Proof.Machine
end

section
/-! SUPPORT. Blocks that look alike from outside stay alike (R31): one lemma for each effect on the registers, one for
each kind of step, and the step. -/

namespace Sys2Proof.Machine

open Sys2Proof

theorem alike_refl (b : Block) : b.Alike b := ⟨rfl, fun _ => ⟨rfl, rfl, rfl⟩, fun _ => rfl⟩

/-- In IDLE two blocks look alike whatever they hold. -/
theorem alike_of_idle {b c : Block} (hb : b.phase = .idle) (hc : c.phase = .idle) : b.Alike c :=
  ⟨hb.trans hc.symm, fun h => (by rw [hb] at h; simp at h), fun h => (by rw [hb] at h; cases h)⟩

/-- In flight, the registers an operation reads are equal. -/
theorem alike_of_busy {b c : Block} (hp : b.phase = c.phase) (hne : b.phase ≠ .resp) (hop : b.op = c.op)
    (hacc : b.acc = c.acc) (hcnt : b.cnt = c.cnt) : b.Alike c :=
  ⟨hp, fun _ => ⟨hop, hacc, hcnt⟩, fun h => absurd h hne⟩

/-- A response hides everything else the blocks hold. -/
theorem alike_respond (st : Status) (x : Word) (n : BitVec 4) (b c : Block) :
    (b.respond st x n).Alike (c.respond st x n) :=
  ⟨rfl, fun h => (by simp at h), fun _ => rfl⟩

theorem alike_raise (e : Err) (n : BitVec 4) (b c : Block) : (b.raise e n).Alike (c.raise e n) :=
  alike_respond (.err e) 0#64 n b c

/-- An operation's `Accept` step overwrites all that its phase reads. -/
theorem alike_acceptEffect (i : Instr) (b c : Block) : (acceptEffect i b).Alike (acceptEffect i c) := by
  cases i with
  | zzenc8 a | zzenc16 a | zzenc32 a | zzenc64 a | zzdec8 a | zzdec16 a | zzdec32 a | zzdec64 a =>
    exact alike_respond ..
  | vencu32 a | vencu64 a | vencs32 a | vencs64 a | vdecu32 | vdecu64 | vdecs32 | vdecs64 =>
    exact alike_of_busy rfl (by simp [acceptEffect]) rfl rfl rfl

/-- An error that ends an operation in flight tells its count. -/
theorem alike_raise_cnt {b c : Block} (e : Err) (hcnt : b.cnt = c.cnt) :
    (b.raise e b.cnt).Alike (c.raise e c.cnt) := by
  rw [hcnt]; exact alike_raise e _ b c

theorem alike_commandEffect (cmd : Command) (b c : Block) : (commandEffect cmd b).Alike (commandEffect cmd c) := by
  unfold commandEffect
  cases decode cmd with
  | ok i => exact alike_acceptEffect i b c
  | error e => exact alike_raise _ _ b c

theorem alike_encAdvance {b c : Block} (h : b.Alike c) (hp : b.phase = .enc) :
    (encAdvance b).Alike (encAdvance c) := by
  obtain ⟨hphase, hbusy, -⟩ := h
  obtain ⟨hop, hacc, hcnt⟩ := hbusy (.inl hp)
  unfold encAdvance
  rw [hacc, hcnt]
  split
  · exact alike_respond ..
  · exact alike_of_busy hphase (by simp [hp]) hop rfl rfl

theorem alike_decAdvance {b c : Block} (x : Byte) (h : b.Alike c) (hp : b.phase = .dec) :
    (decAdvance (varintWidth b.op) x b).Alike (decAdvance (varintWidth c.op) x c) := by
  obtain ⟨hphase, hbusy, -⟩ := h
  obtain ⟨hop, hacc, hcnt⟩ := hbusy (.inr hp)
  unfold decAdvance decAccumulate
  rw [hop, hacc, hcnt]
  split
  · exact alike_respond ..
  · split
    · exact alike_raise ..
    · exact alike_of_busy hphase (by simp [hp]) rfl rfl rfl

/-- A step of any kind keeps two states with one environment alike. -/
theorem fire_alike {s s' t : State} {e : Event} (h : s.blk.Alike s'.blk) (he : s.env = s'.env)
    (hf : fire e s = .next t) : ∃ t', fire e s' = .next t' ∧ t.blk.Alike t'.blk ∧ t.env = t'.env := by
  have ⟨hphase, hbusy, hresp⟩ := h
  cases e with
  | accept c =>
    rw [fire_accept] at hf ⊢
    obtain ⟨hp, rfl⟩ := acceptStep_next hf
    exact ⟨_, acceptStep_of_idle (hphase ▸ hp), alike_commandEffect c _ _, he⟩
  | write a =>
    rw [fire_write] at hf ⊢
    obtain ⟨hp, ⟨rfl, rfl⟩ | ⟨rfl, rfl⟩⟩ := writeStep_next hf
    all_goals
      have hp' : s'.blk.phase = .enc := hphase ▸ hp
      obtain ⟨-, hacc, hcnt⟩ := hbusy (.inl hp)
    · exact ⟨_, writeStep_of_enc hp', alike_raise_cnt .ioFailure hcnt, he⟩
    · exact ⟨_, writeStep_of_enc hp', alike_encAdvance h hp, by simp [State.pushSink, he, hacc]⟩
  | read a =>
    rw [fire_read] at hf ⊢
    obtain ⟨hp, ⟨rfl, rfl⟩ | ⟨rfl, rfl⟩ | ⟨x, rfl, rfl⟩⟩ := readStep_next hf
    all_goals
      have hp' : s'.blk.phase = .dec := hphase ▸ hp
      obtain ⟨-, -, hcnt⟩ := hbusy (.inr hp)
    · exact ⟨_, readStep_of_dec hp', alike_raise_cnt .endOfInput hcnt, he⟩
    · exact ⟨_, readStep_of_dec hp', alike_raise_cnt .ioFailure hcnt, he⟩
    · exact ⟨_, readStep_of_dec hp', alike_decAdvance x h hp, he⟩
  | deliver =>
    obtain ⟨hp, hprod, rfl⟩ := deliver_next hf
    have hrsp : s.blk.response = s'.blk.response := hresp hp
    refine ⟨_, deliver_of_resp (hphase ▸ hp) (hrsp ▸ hprod), alike_of_idle rfl rfl, ?_⟩
    simp [delivered, he, hrsp]
  | reset => cases hf; exact ⟨_, rfl, alike_refl _, he⟩

/-- Settles O45: the two states are offered the same step, and a step of any kind keeps them alike. -/
theorem hiddenStateIsUnobservable : Obligations.HiddenStateIsUnobservable := by
  intro s s' t h he hs
  obtain ⟨e, v, ho, hf⟩ := offer_of_step_next hs
  rw [step_of_offer (s := s') (offer_congr h.1 he ▸ ho)]
  exact fire_alike (s := { s with env := v }) (s' := { s' with env := v }) h rfl hf

end Sys2Proof.Machine
end

section
/-! SUPPORT. The statements about one step and one edge. -/

namespace Sys2Proof.Machine

open Sys2Proof

/-- Settles O9: what each kind of step needs, and that the machine's step is the one offered. -/
theorem stepsEnabledByPhase : Obligations.StepsEnabledByPhase := by
  intro s ⟨hl, _, _, _⟩
  refine ⟨fun c => fire_accept_enabled_iff c s, fun a => fire_write_enabled_iff a s,
    fun a => fire_read_enabled_iff a s, fire_deliver_enabled_iff hl, ⟨_, fire_reset s⟩, fun t h => ?_⟩
  obtain ⟨e, v, ho, hf⟩ := offer_of_step_next h
  exact ⟨e, v, hf, offer_eq_event ho⟩

/-- Settles O13, by the kind of step. -/
theorem phaseMoves : Obligations.PhaseMoves := by
  intro s t h hr
  obtain ⟨hr', -⟩ | ⟨-, hp, c, v, -, ⟨i, -, rfl⟩ | ⟨-, rfl⟩⟩ | ⟨-, hp, a, v, -, ⟨-, rfl⟩ | ⟨-, rfl⟩⟩ |
    ⟨-, hp, a, v, -, ⟨-, rfl⟩ | ⟨-, rfl⟩ | ⟨x, -, rfl⟩⟩ | ⟨-, hp, -, -, rfl⟩ := step_next h
  · rw [hr] at hr'; cases hr'
  · simpa [hp] using phase_of_ne_idle (acceptEffect_phase i s.blk)
  · simp [hp]
  · simp [hp]
  · simpa [hp] using encAdvance_phase hp
  · simp [hp]
  · simp [hp]
  · simpa [hp] using decAdvance_phase hp
  · simp [hp, delivered]

/-- Settles O14: an accepted command writes its own code, every other step with `rst` low keeps OP. -/
theorem opWrittenOnlyByLegalAccept : Obligations.OpWrittenOnlyByLegalAccept := by
  intro s t h hr
  obtain ⟨hr', -⟩ | ⟨-, hp, c, v, hn, ⟨i, hd, rfl⟩ | ⟨⟨e, hd⟩, rfl⟩⟩ | ⟨-, hp, a, v, -, ⟨-, rfl⟩ | ⟨-, rfl⟩⟩ |
    ⟨-, hp, a, v, -, ⟨-, rfl⟩ | ⟨-, rfl⟩ | ⟨x, -, rfl⟩⟩ | ⟨-, hp, -, -, rfl⟩ := step_next h
  · rw [hr] at hr'; cases hr'
  · exact .inl ⟨c, v.cmds, i, hp, (nextCmd_eq_some hn).1, hd, acceptEffect_op hd s.blk⟩
  · exact .inr ⟨fun _ => ⟨c, v.cmds, e, (nextCmd_eq_some hn).1, hd⟩, rfl⟩
  all_goals exact .inr ⟨by simp [hp], by simp [delivered]⟩

/-- What a step with `rst` low does to the response: it enters RESP from another phase, or leaves the response as it
was (R26). -/
theorem step_response {s t : State} (h : step s = .next t) (hr : s.env.rstHigh = false) :
    (s.blk.phase ≠ .resp ∧ t.blk.phase = .resp) ∨ t.blk.response = s.blk.response := by
  obtain ⟨hr', -⟩ | ⟨-, hp, c, v, -, ⟨i, -, rfl⟩ | ⟨-, rfl⟩⟩ | ⟨-, hp, a, v, -, ⟨-, rfl⟩ | ⟨-, rfl⟩⟩ |
    ⟨-, hp, a, v, -, ⟨-, rfl⟩ | ⟨-, rfl⟩ | ⟨x, -, rfl⟩⟩ | ⟨-, -, -, -, rfl⟩ := step_next h
  · rw [hr] at hr'; cases hr'
  · exact (acceptEffect_response i s.blk).imp_left (⟨by simp [hp], ·⟩)
  · exact .inl ⟨by simp [hp], rfl⟩
  · exact .inl ⟨by simp [hp], rfl⟩
  · exact (encAdvance_response s.blk).imp_left (⟨by simp [hp], ·⟩)
  · exact .inl ⟨by simp [hp], rfl⟩
  · exact .inl ⟨by simp [hp], rfl⟩
  · exact (decAdvance_response _ x s.blk).imp_left (⟨by simp [hp], ·⟩)
  · exact .inr rfl

/-- Settles O15: the response is the three registers together. -/
theorem responseWrittenOnlyOnEnteringResp : Obligations.ResponseWrittenOnlyOnEnteringResp :=
  fun _ _ h hr => (step_response h hr).imp_right fun heq =>
    ⟨congrArg Response.status heq, congrArg Response.value heq, congrArg Response.count heq⟩

/-- Settles O7: the command on the port is accepted, and it decodes. -/
theorem stepRunsDecodedInstruction : Obligations.StepRunsDecodedInstruction := by
  intro s c rest i hp hr hc hd
  rw [step_of_idle hp hr hc, acceptCommand_of_ok hd]

/-- Settles O16, by the four phases. -/
theorem oneHandshakeOpenPerPhase : Obligations.OneHandshakeOpenPerPhase := by
  intro b
  refine ⟨rfl, rfl, rfl, rfl, fun hp => if_pos hp, ?_⟩
  unfold Block.ports
  cases b.phase <;> rfl

/-- Settles O51: what the environment offers in each phase. -/
theorem stepFollowsEnvironment : Obligations.StepFollowsEnvironment := by
  intro s
  refine ⟨fun hr => step_of_offer (offer_of_high hr), fun hr => ⟨?_, ?_, ?_, ?_, ?_, ?_⟩⟩
  · exact fun c rest hp hc => step_of_offer (offer_of_idle hr hp (nextCmd_of_cons hc))
  · exact fun a more hp hs => step_of_offer (offer_of_enc hr hp (nextSnk_of_cons hs))
  · exact fun a hp hs ht => step_of_offer (offer_of_enc hr hp (nextSnk_of_nil hs ht))
  · exact fun a more hp hs => step_of_offer (offer_of_dec hr hp (nextSrc_of_cons hs))
  · exact fun a hp hs ht => step_of_offer (offer_of_dec hr hp (nextSrc_of_nil hs ht))
  · exact fun hp hready => step_of_offer (offer_of_resp hr hp hready)

/-! ## One rising edge (R34) -/

theorem edge_of_high {raced : Bool} {p : PortIn} {s : State} (hr : p.rst = true) :
    edge raced p s = .next (resetBlock (if raced then s.cutTransfer else s)) := by
  unfold edge PortIn.handshake
  simp only [hr, if_true, Bool.true_and, fire_reset]

/-- Once its byte is gone, a handshake cut in ENC has put the offered byte in the sink; in no other phase does the cut
change the environment (R161, I8). -/
theorem cutTransfer_env (s : State) :
    s.cutTransfer.env =
      { s.env with sink := if s.blk.phase = .enc then s.env.sink ++ [encbyte s.blk.acc] else s.env.sink } := by
  unfold State.cutTransfer
  cases s.blk.phase <;> rfl

/-- With `rst` low an edge is the step of its handshake when the answer is present, and else nothing. -/
theorem edge_of_low {raced answered : Bool} {p : PortIn} {s : State} {e : Event} (hr : p.rst = false)
    (hh : p.handshake s.blk.phase = if answered then some e else none) :
    edge raced p s = if answered then fire e s else .next s := by
  unfold edge
  rw [hh, hr]
  cases answered <;> rfl

/-- The handshake of a phase, with `rst` low. -/
theorem handshake_of_low {p : PortIn} (hr : p.rst = false) :
    p.handshake .idle = (if p.cmdValid then some (.accept ⟨p.cmdOp, p.cmdArg⟩) else none) ∧
    p.handshake .enc = (if p.snkAck then some (.write p.snkAnswer) else none) ∧
    p.handshake .dec = (if p.srcAck then some (.read p.srcAnswer) else none) ∧
    p.handshake .resp = (if p.rspReady then some .deliver else none) := by
  unfold PortIn.handshake
  rw [hr]
  exact ⟨rfl, rfl, rfl, rfl⟩

/-- Settles O49: with `rst` high the edge is Reset, with `rst` low it is the step of the phase's handshake. -/
theorem edgeCompletesOneHandshake : Obligations.EdgeCompletesOneHandshake := by
  intro raced p s
  refine ⟨fun hr => ?_, fun hr => ?_⟩
  · rw [edge_of_high hr]
    cases raced
    · simp [resetBlock, State.withBlk]
    · simp [resetBlock, State.withBlk, cutTransfer_env]
  · obtain ⟨hidle, henc, hdec, hresp⟩ := handshake_of_low hr
    exact ⟨fun hp => edge_of_low hr (hp ▸ hidle), fun hp => edge_of_low hr (hp ▸ henc),
      fun hp => edge_of_low hr (hp ▸ hdec), fun hp => edge_of_low hr (hp ▸ hresp)⟩

end Sys2Proof.Machine
end

section
/-! SUPPORT. The statements about the streams: what a step takes from the environment and what it hands to it, the wait
for an answer that never comes, and the frame of the sixteen instructions. -/

namespace Sys2Proof.Machine

open Sys2Proof

/-! ## The answer a step takes -/

theorem nextSrc_takes {v v' : Env} {a : SrcAnswer} (h : v.nextSrc = some (a, v')) :
    v' = { v with src := v.src.tail } := by
  obtain ⟨hs, hv⟩ | ⟨hs, -, hv⟩ := nextSrc_eq_some h
  · rw [hs, hv]; rfl
  · rw [hv, hs, List.tail_nil, ← hs]

theorem nextSnk_takes {v v' : Env} {a : SnkAnswer} (h : v.nextSnk = some (a, v')) :
    v.snk.head?.or v.snkThen = some a ∧ v' = { v with snk := v.snk.tail } := by
  obtain ⟨hs, hv⟩ | ⟨hs, ht, hv⟩ := nextSnk_eq_some h
  · rw [hs, hv]; exact ⟨rfl, rfl⟩
  · exact ⟨by rw [hs, ht]; rfl, by rw [hv, hs, List.tail_nil, ← hs]⟩

theorem nextCmd_takes {v v' : Env} {c : Command} (h : v.nextCmd = some (c, v')) :
    v' = { v with cmds := v.cmds.tail } := by
  obtain ⟨hc, hv⟩ := nextCmd_eq_some h
  rw [hc, hv]; rfl

/-- What a step does to the environment (R43, R53, R147, R161): Reset passes one level of `rst`, and every other step
besides that completes the transfer of its phase and no other. -/
theorem step_environment {s t : State} (h : step s = .next t) :
    (s.env.rstHigh = true ∧ t.env = s.env.passRst) ∨
    (s.env.rstHigh = false ∧ s.blk.phase = .idle ∧ t.env = { s.env.passRst with cmds := s.env.cmds.tail }) ∨
    (s.env.rstHigh = false ∧ s.blk.phase = .enc ∧ ∃ a, s.env.snk.head?.or s.env.snkThen = some a ∧
      ((a = .ioFail ∧ t.env = { s.env.passRst with snk := s.env.snk.tail }) ∨
        (a = .ok ∧ t.env = { s.env.passRst with
          snk := s.env.snk.tail, sink := s.env.sink ++ [encbyte s.blk.acc] }))) ∨
    (s.env.rstHigh = false ∧ s.blk.phase = .dec ∧ t.env = { s.env.passRst with src := s.env.src.tail }) ∨
    (s.env.rstHigh = false ∧ s.blk.phase = .resp ∧
      t.env = { s.env.passRst with taken := s.env.taken ++ [s.blk.response] }) := by
  obtain ⟨hr, rfl⟩ | ⟨hr, hp, c, v, hn, ht⟩ | ⟨hr, hp, a, v, hn, ht⟩ | ⟨hr, hp, a, v, hn, ht⟩ |
    ⟨hr, hp, -, -, rfl⟩ := step_next h
  · exact .inl ⟨hr, rfl⟩
  · have hv : t.env = v := by obtain ⟨i, -, rfl⟩ | ⟨-, rfl⟩ := ht <;> rfl
    exact .inr (.inl ⟨hr, hp, hv.trans (nextCmd_takes hn)⟩)
  · obtain ⟨ha, rfl⟩ := nextSnk_takes hn
    refine .inr (.inr (.inl ⟨hr, hp, a, ha, ?_⟩))
    obtain ⟨hfail, rfl⟩ | ⟨hok, rfl⟩ := ht
    · exact .inl ⟨hfail, rfl⟩
    · exact .inr ⟨hok, rfl⟩
  · have hv : t.env = v := by obtain ⟨-, rfl⟩ | ⟨-, rfl⟩ | ⟨x, -, rfl⟩ := ht <;> rfl
    exact .inr (.inr (.inr (.inl ⟨hr, hp, hv.trans (nextSrc_takes hn)⟩)))
  · exact .inr (.inr (.inr (.inr ⟨hr, hp, rfl⟩)))

/-- Settles O39: with `rst` low, DEC takes one answer of the source, ENC one of the sink, and no other step takes any. -/
theorem sourceIsReadOnlyByDecodes : Obligations.SourceIsReadOnlyByDecodes := by
  intro s t h hr
  obtain ⟨hr', -⟩ | ⟨-, hp, he⟩ | ⟨-, hp, a, -, ⟨-, he⟩ | ⟨-, he⟩⟩ | ⟨-, hp, he⟩ | ⟨-, hp, he⟩ :=
    step_environment h
  · rw [hr] at hr'; cases hr'
  all_goals simp [hp, he]

/-- Settles O40: the `Write` step answered Ok adds its byte, and every other step leaves the sink alone. -/
theorem sinkKeepsWhatItTook : Obligations.SinkKeepsWhatItTook := by
  intro s t h
  obtain ⟨-, he⟩ | ⟨-, -, he⟩ | ⟨hr, hp, a, ha, ⟨-, he⟩ | ⟨rfl, he⟩⟩ | ⟨-, -, he⟩ | ⟨-, -, he⟩ :=
    step_environment h
  case inr.inr.inl.inr =>
    refine .inr ⟨hp, hr, by rw [he], ?_⟩
    simpa [Option.or_eq_some_iff] using ha
  all_goals exact .inl (by rw [he]; rfl)

/-! ## The wait for an answer that never comes (R44, R165) -/

theorem nextSnk_eq_none {v : Env} (h : v.snk = []) (ht : v.snkThen = none) : v.nextSnk = none := by
  unfold Env.nextSnk; rw [h, ht]; rfl

theorem nextSrc_eq_none {v : Env} (h : v.src = []) (ht : v.srcThen = none) : v.nextSrc = none := by
  unfold Env.nextSrc; rw [h, ht]; rfl

/-- A block that with `rst` low waits has Reset as its only step. -/
theorem step_of_wait {s : State} {why : Fault} (h : s.env.rstHigh = false → s.offer = .wait why) :
    step s = if s.env.rstHigh then .next { blk := Block.reset, env := { s.env with rst := s.env.rst.tail } }
      else .fault why := by
  cases hr : s.env.rstHigh with
  | true => rw [step_of_offer (offer_of_high hr)]; rfl
  | false => unfold step takeOffer; rw [h hr]; rfl

/-- Settles O10, by the three waits. -/
theorem waitingBlockHasOnlyReset : Obligations.WaitingBlockHasOnlyReset := by
  intro s
  refine ⟨fun hp hs ht => step_of_wait fun hr => ?_, fun hp hs ht => step_of_wait fun hr => ?_,
    fun hp hready => step_of_wait fun hr => ?_⟩ <;> unfold State.offer
  · rw [hr, hp, nextSnk_eq_none (v := s.env.passRst) hs ht]; rfl
  · rw [hr, hp, nextSrc_eq_none (v := s.env.passRst) hs ht]; rfl
  · rw [hr, hp, hready]; rfl

/-! ## The frame of the sixteen instructions (R63, R92, R103, R120) -/

theorem exec_next {i : Instr} {s t : State} (h : exec i s = .next t) : t = s.withBlk (acceptEffect i s.blk) := by
  rw [exec_eq] at h
  exact (acceptStep_next h).2

/-- A zig-zag operation writes neither the accumulator nor the counter (R92). -/
theorem acceptEffect_frame_of_zigzag {i : Instr} (h : isVarint (opField i.cmdByte) = false) (b : Block) :
    (acceptEffect i b).acc = b.acc ∧ (acceptEffect i b).cnt = b.cnt := by
  cases i with
  | zzenc8 a | zzenc16 a | zzenc32 a | zzenc64 a | zzdec8 a | zzdec16 a | zzdec32 a | zzdec64 a => exact ⟨rfl, rfl⟩
  | vencu32 a | vencu64 a | vencs32 a | vencs64 a | vdecu32 | vdecu64 | vdecs32 | vdecs64 =>
    exact absurd h (by simp only [Instr.cmdByte]; decide)

/-- A varint operation's `Accept` step writes no response register (R103, R120). -/
theorem acceptEffect_frame_of_varint {i : Instr} (h : isVarint (opField i.cmdByte) = true) (b : Block) :
    (acceptEffect i b).rspStatus = b.rspStatus ∧ (acceptEffect i b).rspValue = b.rspValue ∧
      (acceptEffect i b).rspCount = b.rspCount := by
  cases i with
  | zzenc8 a | zzenc16 a | zzenc32 a | zzenc64 a | zzdec8 a | zzdec16 a | zzdec32 a | zzdec64 a =>
    exact absurd h (by simp only [Instr.cmdByte]; decide)
  | vencu32 a | vencu64 a | vencs32 a | vencs64 a | vdecu32 | vdecu64 | vdecs32 | vdecs64 => exact ⟨rfl, rfl, rfl⟩

/-- Settles O19: the registers of the kind the operation does not write, and the whole environment. -/
theorem execFrame : Obligations.ExecFrame := by
  intro i s t h
  obtain rfl := exec_next h
  exact ⟨withBlk_env .., fun hv => acceptEffect_frame_of_zigzag hv s.blk,
    fun hv => acceptEffect_frame_of_varint hv s.blk⟩

end Sys2Proof.Machine
end

section
/-! SUPPORT. The varint of a value by recursion on its groups, and why no other byte sequence is canonical and carries
the value (R71, R102, R110). -/

namespace Sys2Proof.Machine

open Sys2Proof

/-! ## The length and the bytes of a varint, group by group (R101, R102) -/

/-- The length of a varint is the number of base-128 digits of the value, and 1 for zero (R101). -/
theorem varintLen_eq_log (v : Word) : varintLen v = Nat.log (2 ^ 7) v.toNat + 1 := by
  unfold varintLen
  split
  next h => rw [h]; rfl
  next h => rw [Nat.log_pow_left, ← Nat.log2_eq_log_two]; omega

theorem varintLen_of_lt {v : Word} (h : v.toNat < 2 ^ 7) : varintLen v = 1 := by
  rw [varintLen_eq_log, Nat.log_of_lt h]

/-- A value of more than one group is one byte longer than the rest above its lowest group. -/
theorem varintLen_of_ge {v : Word} (h : 2 ^ 7 ≤ v.toNat) : varintLen v = varintLen (restOf v) + 1 := by
  rw [varintLen_eq_log, varintLen_eq_log, restOf_toNat, Nat.log_of_one_lt_of_le (by decide) h]

/-- The first byte of the closed form is the byte the encoder offers (R102). -/
theorem varintByte_zero (v : Word) : varintByte v 0 = encbyte v := by
  have hmore : 0 + 1 < varintLen v ↔ restOf v ≠ 0#64 := by
    rw [Ne, restOf_eq_zero_iff, varintLen_eq_log, Nat.add_lt_add_iff_right, Nat.log_pos_iff]
    omega
  unfold varintByte encbyte
  simp only [hmore]

/-- The further bytes of the closed form are the bytes of the rest (R102). -/
theorem varintByte_succ {v : Word} (h : 2 ^ 7 ≤ v.toNat) (k : Nat) :
    varintByte v (k + 1) = varintByte (restOf v) k := by
  have hgroup : v.extractLsb' (7 * (k + 1)) 7 = (restOf v).extractLsb' (7 * k) 7 := by
    rw [← BitVec.toNat_inj, BitVec.extractLsb'_toNat, BitVec.extractLsb'_toNat, restOf_toNat,
      ← Nat.shiftRight_eq_div_pow, ← Nat.shiftRight_add, show 7 * (k + 1) = 7 + 7 * k by omega]
  unfold varintByte
  rw [hgroup, varintLen_of_ge h]
  simp only [Nat.add_lt_add_iff_right]

theorem varintBytes_of_lt {v : Word} (h : v.toNat < 2 ^ 7) : varintBytes v = [encbyte v] := by
  rw [varintBytes, varintLen_of_lt h, List.range_one, List.map_singleton, varintByte_zero]

/-- The varint of a value of more than one group: the byte of its lowest group, then the varint of the rest. -/
theorem varintBytes_of_ge {v : Word} (h : 2 ^ 7 ≤ v.toNat) : varintBytes v = encbyte v :: varintBytes (restOf v) := by
  rw [varintBytes, varintLen_of_ge h, List.range_succ_eq_map, List.map_cons, varintByte_zero, List.map_map]
  exact congrArg _ (List.map_congr_left fun k _ => varintByte_succ h k)

theorem varintBytes_ne_nil (v : Word) : varintBytes v ≠ [] := by
  rw [varintBytes, varintLen_eq_log, List.range_succ_eq_map]
  exact List.cons_ne_nil _ _

/-! ## The only canonical form (R71, R110) -/

/-- A byte is the one offered for a value exactly when its flag says whether more remains and its payload is the value's
lowest group (R102). -/
theorem encbyte_eq_iff (v : Word) (b : Byte) :
    encbyte v = b ↔ contFlag b = decide (2 ^ 7 ≤ v.toNat) ∧ b.toNat % 2 ^ 7 = v.toNat % 2 ^ 7 := by
  have hb := b.isLt
  rw [← BitVec.toNat_inj, encbyte_toNat, contFlag_eq, decide_eq_decide]
  split <;> omega

/-- R71 for the bytes `bs` and `last`: every byte but the last continues, and the last ends without adding an empty
group. -/
def Canonical (bs : List Byte) (last : Byte) : Prop :=
  (∀ b ∈ bs, contFlag b = true) ∧ contFlag last = false ∧ (bs ≠ [] → last ≠ 0x00#8)

theorem canonical_nil_iff (last : Byte) : Canonical [] last ↔ contFlag last = false := by
  simp [Canonical]

/-- Canonical bytes end in 0x00 only where they carry no payload at all: only the varint of zero does. -/
theorem groupSum_pos_iff {bs : List Byte} {last : Byte} (h : Canonical bs last) :
    0 < groupSum (bs ++ [last]) ↔ last ≠ 0x00#8 := by
  obtain ⟨-, hc, hne⟩ := h
  rw [contFlag_eq, decide_eq_false_iff_not] at hc
  have hlast : last.toNat % 2 ^ 7 = 0 ↔ last = 0x00#8 := by
    rw [← BitVec.toNat_inj, Nat.mod_eq_of_lt (by omega)]
    rfl
  constructor
  · rintro hpos rfl
    have hbs : bs = [] := by_contra fun h => hne h rfl
    rw [hbs] at hpos
    exact absurd hpos (by decide)
  · intro h0
    have hp : 0 < last.toNat % 2 ^ 7 := Nat.pos_of_ne_zero fun h => h0 (hlast.1 h)
    rw [groupSum_append, groupSum_cons, groupSum_nil]
    positivity

/-- One more byte before canonical bytes: it continues, and what follows it is not the varint of zero. -/
theorem canonical_cons_iff (b : Byte) (bs : List Byte) (last : Byte) :
    Canonical (b :: bs) last ↔ contFlag b = true ∧ Canonical bs last ∧ 0 < groupSum (bs ++ [last]) := by
  rw [and_congr_right_iff.2 fun h => groupSum_pos_iff h]
  simp only [Canonical, List.forall_mem_cons, ne_eq, reduceCtorEq, not_false_eq_true, true_implies]
  tauto

/-- One byte is the varint of a value exactly when it is a terminator that carries the value. -/
theorem varintBytes_eq_singleton_iff (v : Word) (last : Byte) :
    varintBytes v = [last] ↔ contFlag last = false ∧ groupSum [last] = v.toNat := by
  rw [groupSum_cons, groupSum_nil]
  by_cases hv : v.toNat < 2 ^ 7
  · have hflag : decide (2 ^ 7 ≤ v.toNat) = false := decide_eq_false (by omega)
    rw [varintBytes_of_lt hv, List.singleton_inj, encbyte_eq_iff, hflag, Nat.mod_eq_of_lt hv]
    rfl
  · have hge : 2 ^ 7 ≤ v.toNat := by omega
    rw [varintBytes_of_ge hge]
    refine iff_of_false (fun h => varintBytes_ne_nil _ (List.cons.inj h).2) fun ⟨_, hsum⟩ => ?_
    omega

/-- The varint of a value is the only canonical byte sequence whose payloads sum to it. -/
theorem varintBytes_eq_iff_canonical (bs : List Byte) (last : Byte) :
    ∀ v : Word, varintBytes v = bs ++ [last] ↔ Canonical bs last ∧ groupSum (bs ++ [last]) = v.toNat := by
  induction bs with
  | nil =>
    intro v
    rw [canonical_nil_iff]
    exact varintBytes_eq_singleton_iff v last
  | cons b bs ih =>
    intro v
    rw [canonical_cons_iff, List.cons_append, groupSum_cons]
    by_cases hv : v.toNat < 2 ^ 7
    · rw [varintBytes_of_lt hv]
      refine iff_of_false (by simp) fun ⟨⟨_, _, hpos⟩, hsum⟩ => ?_
      omega
    · have hge : 2 ^ 7 ≤ v.toNat := by omega
      rw [varintBytes_of_ge hge, List.cons.injEq, encbyte_eq_iff, ih, restOf_toNat, decide_eq_true hge]
      constructor
      · rintro ⟨⟨hb, hlow⟩, hcan, hsum⟩
        exact ⟨⟨hb, hcan, by omega⟩, by omega⟩
      · rintro ⟨⟨hb, hcan, _⟩, hsum⟩
        exact ⟨⟨hb, by omega⟩, hcan, by omega⟩

/-- Settles O31, by induction on the bytes before the last. -/
theorem varintIsTheOnlyCanonicalForm : Obligations.VarintIsTheOnlyCanonicalForm := by
  intro v bs last
  rw [varintBytes_eq_iff_canonical]
  simp only [Canonical, and_assoc]

end Sys2Proof.Machine
end

section
/-! SUPPORT. The encoding (30_encoding.md): what the decoder and the encoder say of each other, and what an assembled
line decodes to. -/

namespace Sys2Proof

open Machine

/-! ## Decoder and encoder (R62, R63) -/

/-- The encoder's command byte and operand decode to the instruction (R62). -/
theorem decode_encode : ∀ i : Instr, decode (encode i) = .ok i
  | .zzenc8 a => Laws.RoundTrip.zzenc8 a
  | .zzenc16 a => Laws.RoundTrip.zzenc16 a
  | .zzenc32 a => Laws.RoundTrip.zzenc32 a
  | .zzenc64 a => Laws.RoundTrip.zzenc64 a
  | .zzdec8 a => Laws.RoundTrip.zzdec8 a
  | .zzdec16 a => Laws.RoundTrip.zzdec16 a
  | .zzdec32 a => Laws.RoundTrip.zzdec32 a
  | .zzdec64 a => Laws.RoundTrip.zzdec64 a
  | .vencu32 a => Laws.RoundTrip.vencu32 a
  | .vencu64 a => Laws.RoundTrip.vencu64 a
  | .vencs32 a => Laws.RoundTrip.vencs32 a
  | .vencs64 a => Laws.RoundTrip.vencs64 a
  | .vdecu32 => Laws.RoundTrip.vdecu32
  | .vdecu64 => Laws.RoundTrip.vdecu64
  | .vdecs32 => Laws.RoundTrip.vdecs32
  | .vdecs64 => Laws.RoundTrip.vdecs64

/-- A byte without reserved bit is its operation code, extended (R60). -/
theorem setWidth_opField {cmd : Byte} (h : cmd.toNat < 16) : (opField cmd).setWidth 8 = cmd := by
  have hrsv : rsvField cmd = 0#4 := (rsvField_eq_zero_iff cmd).2 h
  have hcmd := cmd_toNat cmd
  rw [hrsv] at hcmd
  rw [← BitVec.toNat_inj, BitVec.toNat_setWidth_of_le (by decide), hcmd]
  exact (Nat.zero_add _).symm

/-- The encoding of what a command decodes to has the command's byte (R62). -/
theorem encode_cmd_of_decode {c : Command} {i : Instr} (h : decode c = .ok i) : (encode i).cmd = c.cmd := by
  obtain ⟨hlt, rfl⟩ := decode_eq_ok h
  calc (encode (decodeOp (opField c.cmd) c.arg)).cmd
      = (opField c.cmd).setWidth 8 := opField_cmdByte_decodeOp _ _
    _ = c.cmd := setWidth_opField hlt

/-- An operand that decoding yields is the whole of ARG (R64). -/
theorem operand_of_decode {c : Command} {i : Instr} {a : Word} (h : decode c = .ok i) (ha : i.operand? = some a) :
    a = c.arg := by
  obtain ⟨-, rfl⟩ := decode_eq_ok h
  rw [operand_decodeOp] at ha
  split at ha <;> cases ha
  rfl

/-- A command decodes exactly when it has no reserved bit set (R66). -/
theorem exists_decode_iff (c : Command) : (∃ i, decode c = .ok i) ↔ c.cmd.toNat < 16 :=
  ⟨fun ⟨_, h⟩ => (decode_eq_ok h).1, fun h => ⟨_, decode_of_legal h⟩⟩

/-- Settles O1: the round trip one way, byte and operand the other, and the legal bytes. -/
theorem decodeAndEncodeAgree : Obligations.DecodeAndEncodeAgree :=
  ⟨decode_encode, fun _ _ h => ⟨encode_cmd_of_decode h, fun _ => operand_of_decode h⟩, exists_decode_iff⟩

/-- The command of an operation code decodes to the operation the code selects (R62). -/
theorem decode_setWidth (code : BitVec 4) (a : Word) : decode ⟨code.setWidth 8, a⟩ = .ok (decodeOp code a) := by
  obtain ⟨hop, hlt⟩ := opField_setWidth code
  rw [decode_of_legal hlt, hop]

/-- Settles O2: the operation each of the sixteen codes selects, and the reserved field of the three other bytes. -/
theorem opcodeMapBytesDecode : Obligations.OpcodeMapBytesDecode := by
  intro a
  have legal := fun code => decode_setWidth code a
  have reserved : ∀ cmd : Byte, 16 ≤ cmd.toNat → decode ⟨cmd, a⟩ = .error (.reservedBitsSet (rsvField cmd)) :=
    fun _ h => decode_of_reserved h
  exact ⟨legal 0x0#4, legal 0x1#4, legal 0x2#4, legal 0x3#4, legal 0x4#4, legal 0x5#4, legal 0x6#4, legal 0x7#4,
    legal 0x8#4, legal 0x9#4, legal 0xA#4, legal 0xB#4, legal 0xC#4, legal 0xD#4, legal 0xE#4, legal 0xF#4,
    reserved 0x10#8 (by decide), reserved 0xFF#8 (by decide), reserved 0x8C#8 (by decide)⟩

/-! ## The width of an operation (R61) -/

/-- The low two bits of a zig-zag code are the exponent of its width (R61). -/
theorem opWidth_of_zigzag {op : BitVec 4} (h : isVarint op = false) : opWidth op = 8 * 2 ^ (op.toNat % 4) := by
  unfold opWidth zigzagWidth
  rw [h, BitVec.extractLsb'_toNat]
  exact Nat.shiftLeft_eq ..

/-- The low bit of a varint code tells its width (R61). -/
theorem varintWidth_eq (op : BitVec 4) : varintWidth op = if op.toNat % 2 = 0 then 32 else 64 := by
  revert op; decide

/-- Settles O3: the zig-zag and the varint widths, and MAX_BYTES of each varint width. -/
theorem operationWidths : Obligations.OperationWidths := by
  have hw : ∀ op : BitVec 4, op.getLsbD 3 = true → opWidth op = if op.toNat % 2 = 0 then 32 else 64 :=
    fun op h => (opWidth_of_varint h).trans (varintWidth_eq op)
  refine ⟨fun _ => opWidth_of_zigzag, hw, fun op h => ?_⟩
  rw [hw op h, apply_ite maxBytes, maxBytes_32, maxBytes_64]

/-! ## Assembled lines (R67) -/

theorem assembleLine_operand {code : BitVec 4} {x : AsmOperand} (h : (AsmLine.op code (some x)).wf = true) :
    assembleLine (.op code (some x)) = some ⟨code.setWidth 8, BitVec.ofInt 64 x.value⟩ :=
  if_pos h

theorem assembleLine_bare {code : BitVec 4} (h : (AsmLine.op code none).wf = true) :
    assembleLine (.op code none) = some ⟨code.setWidth 8, 0#64⟩ :=
  if_pos h

theorem assembleLine_raw {cmd : Nat} {x : AsmOperand} (h : (AsmLine.raw cmd x).wf = true) :
    assembleLine (.raw cmd x) = some ⟨BitVec.ofNat 8 cmd, BitVec.ofInt 64 x.value⟩ :=
  if_pos h

/-- A well-formed line writes an operand exactly when its operation takes one. -/
theorem noOperand_of_wf {code : BitVec 4} {x : Option AsmOperand} (h : (AsmLine.op code x).wf = true) :
    noOperand code = x.isNone := by
  cases x with
  | none => exact h
  | some x =>
    simp only [AsmLine.wf, Bool.and_eq_true, Bool.not_eq_true'] at h
    obtain ⟨⟨hno, -⟩, -⟩ := h
    exact hno

/-- A raw line's byte and number are in the range of the ports that carry them (log 21). -/
theorem range_of_wf_raw {cmd : Nat} {x : AsmOperand} (h : (AsmLine.raw cmd x).wf = true) :
    cmd < 2 ^ 8 ∧ 0 ≤ x.value ∧ x.value < 2 ^ 64 := by
  simpa [AsmLine.wf] using h

/-- A number in the range of ARG is driven as itself. -/
theorem toNat_ofInt_of_range {v : Int} (h0 : 0 ≤ v) (h : v < 2 ^ 64) : ((BitVec.ofInt 64 v).toNat : Int) = v := by
  rw [BitVec.toNat_ofInt]
  omega

/-- Settles O6, by the shape of the line. -/
theorem assembledLineDecodes : Obligations.AssembledLineDecodes := by
  refine ⟨fun code x h => ?_, fun code h => ?_, fun cmd x h => ?_⟩
  · refine ⟨_, _, assembleLine_operand h, decode_setWidth code _, (opField_setWidth code).1, ?_,
      setWidth_ofInt (opWidth_le code) x.value⟩
    rw [operand_decodeOp, noOperand_of_wf h]
    rfl
  · refine ⟨_, _, assembleLine_bare h, decode_setWidth code _, (opField_setWidth code).1, ?_⟩
    rw [operand_decodeOp, noOperand_of_wf h]
    rfl
  · obtain ⟨hcmd, h0, hlt⟩ := range_of_wf_raw h
    exact ⟨_, assembleLine_raw h, Nat.mod_eq_of_lt hcmd, toNat_ofInt_of_range h0 hlt⟩

end Sys2Proof
end

section
/-! SUPPORT. The encoding in a step: commands with a reserved bit, the operand bits an operation reads, a placed word
and the answers at the ports (R63, R64, R66, R72). -/

namespace Sys2Proof.Machine

open Sys2Proof

/-- The effect of a command with a reserved bit set is IllegalCommand with no transfer (R66). -/
theorem commandEffect_of_reserved {c : Command} (h : 16 ≤ c.cmd.toNat) (b : Block) :
    commandEffect c b = b.raise .illegalCommand 0#4 := by
  unfold commandEffect
  rw [decode_of_reserved h]

theorem commandEffect_of_ok {c : Command} {i : Instr} (h : decode c = .ok i) (b : Block) :
    commandEffect c b = acceptEffect i b := by
  unfold commandEffect
  rw [h]

/-- In IDLE with `rst` low, the step is the effect of the command on the port. -/
theorem step_commandEffect {s : State} {c : Command} {rest : List Command} (hp : s.blk.phase = .idle)
    (hr : s.env.rstHigh = false) (hc : s.env.cmds = c :: rest) :
    step s = .next
      { blk := commandEffect c s.blk, env := { s.env with cmds := rest, rst := s.env.rst.tail } } := by
  rw [step_of_idle hp hr hc, acceptCommand_eq]
  exact acceptStep_of_idle hp

/-- Settles O5: the effect of a reserved byte, and of a legal one, which is no no-op. -/
theorem reservedCommandBytesAreIllegal : Obligations.ReservedCommandBytesAreIllegal := by
  intro s c rest hp hr hc
  have hstep := step_commandEffect hp hr hc
  refine ⟨fun h => ?_, fun h => ?_⟩
  · rw [hstep, commandEffect_of_reserved h]
    rfl
  · obtain ⟨i, hi⟩ := (exists_decode_iff c).2 h
    rw [commandEffect_of_ok hi] at hstep
    exact ⟨i, _, hi, hstep, acceptEffect_phase i s.blk⟩

/-- Settles O4: the effect of an operation of width W is written over `operand W ARG`. -/
theorem upperOperandBitsIgnored : Obligations.UpperOperandBitsIgnored := by
  intro a b s
  refine ⟨fun h => ?_, fun h => ?_, fun h => ?_⟩
  · have ho : operand 8 a = operand 8 b := h
    simp only [exec_eq, acceptEffect, ho, and_self]
  · have ho : operand 16 a = operand 16 b := h
    simp only [exec_eq, acceptEffect, ho, and_self]
  · have ho : operand 32 a = operand 32 b := h
    simp only [exec_eq, acceptEffect, ho, and_self]

theorem decode_of_tableWord {nbits w : Nat} {i : Instr} (h : decodeTableWord nbits w = some i) :
    decode (wordCommand nbits w) = .ok i := by
  unfold decodeTableWord at h
  cases hd : decode (wordCommand nbits w) with
  | ok j => rw [hd] at h; cases h; rfl
  | error e => rw [hd] at h; cases h

/-- A command placed first is offered with `rst` low, whatever `rst` held (log 6). -/
theorem offerFirst_rstHigh (c : Command) (s : State) : (s.offerFirst c).env.rstHigh = false := by
  unfold State.offerFirst
  cases hr : s.env.rstHigh
  · exact hr
  · rfl

/-- The one low level of `rst` that placing a command may add is the one the next step passes (log 6). -/
theorem offerFirst_rst_tail (c : Command) (s : State) :
    (s.offerFirst c).env.rst.tail = if s.env.rstHigh then s.env.rst else s.env.rst.tail := by
  unfold State.offerFirst
  cases s.env.rstHigh <;> rfl

/-- Settles O8: the placed command is the one the next step accepts. -/
theorem fetchedWordRunsNext : Obligations.FetchedWordRunsNext := by
  intro s nbits w i h
  unfold State.withFetchWord
  rw [step_of_idle (offerFirst_phase _ s) (offerFirst_rstHigh _ s) (offerFirst_cmds _ s),
    acceptCommand_of_ok (decode_of_tableWord h), offerFirst_rst_tail]
  rfl

/-- The source's answer by its kind (R72). -/
theorem srcAnswer_of_kind (p : PortIn) :
    (p.srcKind = 0#2 → p.srcAnswer = .byte p.srcData) ∧ (p.srcKind = 1#2 → p.srcAnswer = .endInput) ∧
    (p.srcKind = 2#2 → p.srcAnswer = .ioFail) ∧ (p.srcKind = 3#2 → p.srcAnswer = .ioFail) := by
  unfold PortIn.srcAnswer
  refine ⟨?_, ?_, ?_, ?_⟩ <;> intro h <;> rw [h] <;> rfl

/-- The sink's answer by its error line (R72). -/
theorem snkAnswer_of_err (p : PortIn) :
    (p.snkErr = false → p.snkAnswer = .ok) ∧ (p.snkErr = true → p.snkAnswer = .ioFail) := by
  unfold PortIn.snkAnswer
  constructor <;> intro h <;> rw [h] <;> rfl

/-- Settles O50: an answered edge is the step of its handshake, with the answer its encoding gives. -/
theorem answerEncodings : Obligations.AnswerEncodings := by
  intro raced p s hr
  obtain ⟨-, henc, hdec, -⟩ := (edgeCompletesOneHandshake raced p s).2 hr
  obtain ⟨hbyte, hend, hfail, hfail'⟩ := srcAnswer_of_kind p
  obtain ⟨hok, herr⟩ := snkAnswer_of_err p
  refine ⟨fun hp hack => ?_, fun hp hack => ?_⟩
  · have hedge : edge raced p s = fire (.read p.srcAnswer) s := (hdec hp).trans (if_pos hack)
    rw [hedge]
    exact ⟨fun h => by rw [hbyte h], fun h => by rw [hend h], fun h => by rw [hfail h], fun h => by rw [hfail' h]⟩
  · have hedge : edge raced p s = fire (.write p.snkAnswer) s := (henc hp).trans (if_pos hack)
    rw [hedge]
    exact ⟨fun h => by rw [hok h], fun h => by rw [herr h]⟩

end Sys2Proof.Machine
end

section
/-! SUPPORT. Zig-zag as integers, over every width: the two branches of each function by the bit that its mask comes
from, their values, the wider computation, and the step of a zig-zag operation (R80 to R92). -/

namespace Sys2Proof.Machine

open Sys2Proof

section Width

variable {w : Nat}

/-! ## The two branches of each function (R80, R81) -/

/-- The sign mask of a pattern with its top bit clear. -/
theorem sshiftRight_top_of_msb_false {a : BitVec w} (h : a.msb = false) : a.sshiftRight (w - 1) = 0#w := by
  have hlt : a.toNat < 2 ^ (w - 1) := by simpa [BitVec.msb_eq_decide] using h
  apply BitVec.eq_of_toNat_eq
  rw [BitVec.sshiftRight_eq_of_msb_false h, BitVec.toNat_ushiftRight, Nat.shiftRight_eq_div_pow,
    Nat.div_eq_of_lt hlt, BitVec.toNat_ofNat, Nat.zero_mod]

/-- The sign mask of a pattern with its top bit set: that of its complement, complemented. -/
theorem sshiftRight_top_of_msb_true {a : BitVec w} (h : a.msb = true) :
    a.sshiftRight (w - 1) = BitVec.allOnes w := by
  have hnot : (~~~a).msb = false := by simp [h]
  rw [← BitVec.not_zero, ← sshiftRight_top_of_msb_false hnot, BitVec.not_sshiftRight_not]

theorem zzEnc_of_msb_false {a : BitVec w} (h : a.msb = false) : zzEnc w a = a <<< 1 := by
  unfold zzEnc
  rw [sshiftRight_top_of_msb_false h, BitVec.xor_zero]

theorem zzEnc_of_msb_true {a : BitVec w} (h : a.msb = true) : zzEnc w a = ~~~(a <<< 1) := by
  unfold zzEnc
  rw [sshiftRight_top_of_msb_true h, BitVec.xor_allOnes]

/-- The bit that the decode's mask comes from is the parity of the pattern. -/
theorem and_one_eq_ofNat_parity (u : BitVec w) : u &&& 1#w = BitVec.ofNat w (u.toNat % 2) := by
  rw [← Nat.and_one_is_mod, BitVec.ofNat_and, BitVec.ofNat_toNat, BitVec.setWidth_eq]

theorem zzDec_of_even {u : BitVec w} (h : u.toNat % 2 = 0) : zzDec w u = u >>> 1 := by
  unfold zzDec
  rw [and_one_eq_ofNat_parity, h, BitVec.neg_zero, BitVec.xor_zero]

theorem zzDec_of_odd {u : BitVec w} (h : u.toNat % 2 = 1) : zzDec w u = ~~~(u >>> 1) := by
  unfold zzDec
  rw [and_one_eq_ofNat_parity, h, BitVec.neg_one_eq_allOnes, BitVec.xor_allOnes]

/-! ## The values as integers (R82) -/

theorem zzEnc_toNat_of_nonneg {a : BitVec w} (h : 0 ≤ a.toInt) : ((zzEnc w a).toNat : Int) = 2 * a.toInt := by
  have hmsb : a.msb = false := by simpa [BitVec.msb_eq_toInt] using h
  have hlt : 2 * a.toNat < 2 ^ w := BitVec.toInt_pos_iff.1 h
  rw [zzEnc_of_msb_false hmsb, BitVec.toInt_eq_toNat_of_msb hmsb, BitVec.toNat_shiftLeft, Nat.shiftLeft_eq,
    pow_one, mul_comm, Nat.mod_eq_of_lt hlt, Nat.cast_mul, Nat.cast_ofNat]

/-- Doubling a negative pattern drops one `2 ^ w`, the complement is taken from `2 ^ w - 1`. -/
theorem zzEnc_toNat_of_neg {a : BitVec w} (h : a.toInt < 0) :
    ((zzEnc w a).toNat : Int) = -2 * a.toInt - 1 := by
  have hmsb : a.msb = true := by simpa [BitVec.msb_eq_toInt] using h
  have hge : 2 ^ w ≤ 2 * a.toNat := BitVec.toInt_neg_iff.1 h
  have hlt : a.toNat < 2 ^ w := a.isLt
  have hdouble : (a <<< 1).toNat = 2 * a.toNat - 2 ^ w := by
    rw [BitVec.toNat_shiftLeft, Nat.shiftLeft_eq, pow_one, mul_comm, Nat.mod_eq_sub_mod hge,
      Nat.mod_eq_of_lt (by omega)]
  rw [zzEnc_of_msb_true hmsb, BitVec.toNat_not, hdouble, BitVec.toInt_eq_msb_cond, if_pos hmsb]
  omega

theorem zzDec_toInt_of_even {u : BitVec w} (h : u.toNat % 2 = 0) : (zzDec w u).toInt = (u.toNat : Int) / 2 := by
  rw [zzDec_of_even h, BitVec.toInt_ushiftRight_of_lt Nat.one_pos, Nat.shiftRight_one]
  omega

theorem zzDec_toInt_of_odd {u : BitVec w} (h : u.toNat % 2 = 1) :
    (zzDec w u).toInt = -(((u.toNat : Int) + 1) / 2) := by
  have hlt : u.toNat < 2 ^ w := u.isLt
  have hmod : (2 ^ w - 1 - ((u.toNat / 2 : Nat) : Int)) = -(((u.toNat : Int) + 1) / 2) + ((2 ^ w : Nat) : Int) := by
    push_cast
    omega
  rw [zzDec_of_odd h, BitVec.toInt_not, BitVec.toNat_ushiftRight, Nat.shiftRight_one, hmod, Int.add_bmod_right,
    Int.bmod_eq_of_le_mul_two (by omega) (by omega)]

/-! ## Inverse bijections (R82), from the values -/

theorem zzDec_zzEnc (a : BitVec w) : zzDec w (zzEnc w a) = a := by
  apply BitVec.eq_of_toInt_eq
  obtain h | h := le_or_gt 0 a.toInt
  · have hval := zzEnc_toNat_of_nonneg h
    rw [zzDec_toInt_of_even (by omega)]
    omega
  · have hval := zzEnc_toNat_of_neg h
    rw [zzDec_toInt_of_odd (by omega)]
    omega

theorem zzEnc_zzDec (u : BitVec w) : zzEnc w (zzDec w u) = u := by
  apply BitVec.eq_of_toNat_eq
  obtain h | h := Nat.mod_two_eq_zero_or_one u.toNat
  · have hval := zzDec_toInt_of_even h
    have henc := zzEnc_toNat_of_nonneg (a := zzDec w u) (by omega)
    omega
  · have hval := zzDec_toInt_of_odd h
    have henc := zzEnc_toNat_of_neg (a := zzDec w u) (by omega)
    omega

/-! ## The extremes (R82) -/

theorem two_pow_eq_two_mul (hw : 0 < w) : ((2 ^ w : Nat) : Int) = 2 * 2 ^ (w - 1) := by
  rw [Nat.cast_pow]
  exact (mul_pow_sub_one hw.ne' 2).symm

theorem zzEnc_toNat_of_greatest (hw : 0 < w) {a : BitVec w} (h : a.toInt = 2 ^ (w - 1) - 1) :
    (zzEnc w a).toNat = 2 ^ w - 2 := by
  have hpow := two_pow_eq_two_mul hw
  have hpos : (0 : Int) < 2 ^ (w - 1) := by positivity
  have henc := zzEnc_toNat_of_nonneg (a := a) (by omega)
  rw [h] at henc
  omega

theorem zzEnc_toNat_of_least (hw : 0 < w) {a : BitVec w} (h : a.toInt = -2 ^ (w - 1)) :
    (zzEnc w a).toNat = 2 ^ w - 1 := by
  have hpow := two_pow_eq_two_mul hw
  have hpos : (0 : Int) < 2 ^ (w - 1) := by positivity
  have henc := zzEnc_toNat_of_neg (a := a) (by omega)
  rw [h] at henc
  omega

/-! ## Computing at a wider width and truncating (R91) -/

/-- The wider decode reads the same low bit, and zeros shift in where the width's own shift brings a zero. -/
theorem setWidth_zzDec_setWidth {v : Nat} (hv : w ≤ v) (u : BitVec w) :
    (zzDec v (u.setWidth v)).setWidth w = zzDec w u := by
  have hext : (u.setWidth v).toNat = u.toNat := BitVec.toNat_setWidth_of_le hv
  have hshift : ((u.setWidth v) >>> 1).setWidth w = u >>> 1 := by
    rw [← BitVec.setWidth_ushiftRight hv, BitVec.setWidth_setWidth_of_le _ hv, BitVec.setWidth_eq]
  obtain h | h := Nat.mod_two_eq_zero_or_one u.toNat
  · rw [zzDec_of_even h, zzDec_of_even (by rwa [hext]), hshift]
  · rw [zzDec_of_odd h, zzDec_of_odd (by rwa [hext]), BitVec.setWidth_not hv, hshift]

/-- A zero-extended pattern is never negative at the wider width, so the wider encode only doubles. -/
theorem setWidth_zzEnc_setWidth {v : Nat} (hv : w < v) (a : BitVec w) :
    (zzEnc v (a.setWidth v)).setWidth w = a <<< 1 := by
  have hmsb : (a.setWidth v).msb = false := by
    rw [BitVec.msb_setWidth, BitVec.getLsbD_of_ge a _ (by omega), Bool.and_false]
  rw [zzEnc_of_msb_false hmsb, BitVec.setWidth_shiftLeft_of_le hv.le, BitVec.setWidth_setWidth_of_le _ hv.le,
    BitVec.setWidth_eq]

/-- The width's own encode of a negative pattern is the complement of that doubling, so it differs. -/
theorem setWidth_zzEnc_setWidth_ne_of_msb {v : Nat} (hv : w < v) {a : BitVec w} (h : a.msb = true) :
    (zzEnc v (a.setWidth v)).setWidth w ≠ zzEnc w a := by
  have hw : 0 < w := Nat.pos_of_ne_zero (by rintro rfl; simp [BitVec.msb_zero_length] at h)
  rw [setWidth_zzEnc_setWidth hv, zzEnc_of_msb_true h]
  exact BitVec.ne_not_self hw

end Width

/-- Settles O22: the values at every width, and the inverse laws and the extremes from them. -/
theorem zigzagIntegerLaws : Obligations.ZigzagIntegerLaws := by
  intro w hw
  have hpos : 0 < w := by omega
  exact ⟨fun _ => ⟨zzEnc_toNat_of_nonneg, zzEnc_toNat_of_neg⟩, fun _ => ⟨zzDec_toInt_of_even, zzDec_toInt_of_odd⟩,
    fun _ => zzEnc_toNat_of_greatest hpos, fun _ => zzEnc_toNat_of_least hpos, zzDec_zzEnc, zzEnc_zzDec⟩

/-- Settles O23: the decode agrees at every wider width, the encode of the pattern of all ones (-1) does not. -/
theorem widerZigzagAgreesOnlyForDecode : Obligations.WiderZigzagAgreesOnlyForDecode := by
  intro w hw
  have hlt : w < 64 := by omega
  exact ⟨setWidth_zzDec_setWidth hlt.le,
    BitVec.allOnes w, setWidth_zzEnc_setWidth_ne_of_msb hlt (BitVec.msb_allOnes (by omega))⟩

/-! ## The step of a zig-zag operation (R83 to R90, R92) -/

/-- In IDLE an instruction with the effect of a zig-zag operation answers its code and its result, and changes nothing
else. -/
theorem exec_zigzagAnswered {i : Instr} {s : State} {code : BitVec 4} {r : Word} (hp : s.blk.phase = .idle)
    (hi : acceptEffect i = zigzagDone code r) : exec i s = .next (s.zigzagAnswered code r) := by
  rw [exec_eq, hi, acceptStep_of_idle hp]
  rfl

/-- The same for each pair of an operand and its result in a table. -/
theorem exec_zigzagAnswered_of_table {f : Word → Instr} {s : State} {code : BitVec 4} {g : Word → Word}
    (hp : s.blk.phase = .idle) (hf : ∀ a, acceptEffect (f a) = zigzagDone code (g a)) {table : List (Word × Word)}
    (ht : table.map (fun p => g p.1) = table.map Prod.snd) :
    ∀ p ∈ table, exec (f p.1) s = .next (s.zigzagAnswered code p.2) := by
  intro p hmem
  rw [← List.map_inj_left.1 ht p hmem]
  exact exec_zigzagAnswered hp (hf p.1)

/-- Settles O20: the effect of each operation in IDLE, and the tables of R83 to R86 by evaluation. -/
theorem zigzagEncodeResults : Obligations.ZigzagEncodeResults :=
  ⟨fun _ _ hp => ⟨rfl, rfl, rfl, rfl, exec_zigzagAnswered hp rfl, exec_zigzagAnswered hp rfl,
      exec_zigzagAnswered hp rfl, exec_zigzagAnswered hp rfl⟩,
    fun _ hp => ⟨exec_zigzagAnswered_of_table hp (fun _ => rfl) rfl, exec_zigzagAnswered_of_table hp (fun _ => rfl) rfl,
      exec_zigzagAnswered_of_table hp (fun _ => rfl) rfl, exec_zigzagAnswered_of_table hp (fun _ => rfl) rfl⟩⟩

/-- Settles O21: the effect of each operation in IDLE, and the tables of R87 to R90 by evaluation. -/
theorem zigzagDecodeResults : Obligations.ZigzagDecodeResults :=
  ⟨fun _ _ hp => ⟨rfl, rfl, rfl, rfl, exec_zigzagAnswered hp rfl, exec_zigzagAnswered hp rfl,
      exec_zigzagAnswered hp rfl, exec_zigzagAnswered hp rfl⟩,
    fun _ hp => ⟨exec_zigzagAnswered_of_table hp (fun _ => rfl) rfl, exec_zigzagAnswered_of_table hp (fun _ => rfl) rfl,
      exec_zigzagAnswered_of_table hp (fun _ => rfl) rfl, exec_zigzagAnswered_of_table hp (fun _ => rfl) rfl⟩⟩

end Sys2Proof.Machine
end

section
/-! SUPPORT. The varint encode family (41_varint_encode.md): the length of a varint by its thresholds, the offered byte
and the steps of an encode, and its whole run with and without a sink failure. -/

namespace Sys2Proof.Machine

open Sys2Proof

/-! ## The length of a varint (R101) -/

theorem varintLen_pos (v : Word) : 0 < varintLen v := by
  rw [varintLen_eq_log]
  exact Nat.succ_pos _

/-- A varint has at most `k` bytes exactly when its value fits `k` groups. -/
theorem varintLen_le_iff (v : Word) {k : Nat} (hk : 0 < k) : varintLen v ≤ k ↔ v.toNat < 2 ^ (7 * k) := by
  rw [varintLen_eq_log, Nat.add_one_le_iff, pow_mul]
  exact ⟨Nat.lt_pow_of_log_lt (by decide), Nat.log_lt_of_lt_pow' hk.ne'⟩

/-- No 64-bit value takes more than ten bytes (R70). -/
theorem varintLen_le_ten (v : Word) : varintLen v ≤ 10 :=
  (varintLen_le_iff v (by decide)).2 (v.isLt.trans (by decide))

/-- Settles O27, from the value that fits `k` groups. -/
theorem varintLengthThresholds : Obligations.VarintLengthThresholds := by
  refine ⟨fun v => ?_, fun v k hk => ?_, fun v hv => ?_, varintLen_le_ten⟩
  · have hone := varintLen_le_iff v Nat.one_pos
    have hpos := varintLen_pos v
    rw [mul_one] at hone
    omega
  · have hle := varintLen_le_iff v (k := k) (by omega)
    have hless := varintLen_le_iff v (k := k - 1) (by omega)
    omega
  · exact (varintLen_le_iff v (by decide)).2 (hv.trans (by decide))

/-- A varint has a byte after byte `k` exactly when more than one group remains there. -/
theorem lt_varintLen_iff (v : Word) (k : Nat) : k + 1 < varintLen v ↔ 2 ^ 7 ≤ (v >>> (7 * k)).toNat := by
  rw [← not_le, varintLen_le_iff v k.succ_pos, not_lt, shiftRight_toNat, Nat.le_div_iff_mul_le (by positivity),
    ← pow_add, Nat.add_comm 7, Nat.mul_add_one]

/-- Byte `k` of the closed form is the byte offered for what remains after `k` groups (R102). -/
theorem varintByte_eq_encbyte {k : Nat} :
    ∀ {v : Word}, k < varintLen v → varintByte v k = encbyte (v >>> (7 * k)) := by
  induction k with
  | zero => exact fun _ => varintByte_zero _
  | succ k ih =>
    intro v h
    have hge : 2 ^ 7 ≤ v.toNat := by
      rw [← BitVec.ushiftRight_zero (x := v)]
      exact (lt_varintLen_iff v 0).1 (by omega)
    rw [varintLen_of_ge hge] at h
    rw [varintByte_succ hge, ih (by omega), restOf, Config.groupBits, shiftRight_shiftRight, Nat.mul_add_one,
      Nat.add_comm]

/-- The first `k` bytes of a varint are those offered after 0 to k-1 groups. -/
theorem take_varintBytes {v : Word} {k : Nat} (h : k ≤ varintLen v) :
    (varintBytes v).take k = (List.range k).map fun j => encbyte (v >>> (7 * j)) := by
  rw [varintBytes, ← List.map_take, List.take_range, Nat.min_eq_left h]
  exact List.map_congr_left fun j hj => varintByte_eq_encbyte ((List.mem_range.1 hj).trans_le h)

theorem length_varintBytes (v : Word) : (varintBytes v).length = varintLen v := by
  rw [varintBytes, List.length_map, List.length_range]

/-- The varint of a value is the bytes before its last, and the byte offered for its last group. -/
theorem varintBytes_eq_take_append {v : Word} {k : Nat} (h : varintLen v = k + 1) :
    varintBytes v = (varintBytes v).take k ++ [encbyte (v >>> (7 * k))] := by
  calc varintBytes v = (varintBytes v).take (k + 1) :=
        (List.take_of_length_le (by rw [length_varintBytes, h])).symm
    _ = (varintBytes v).take k ++ [encbyte (v >>> (7 * k))] := by
        rw [take_varintBytes h.ge, take_varintBytes (by omega), List.range_succ, List.map_append, List.map_singleton]

/-! ## One step (R100, R102, R103) -/

theorem getLsbD_payload (b : Byte) {j : Nat} (h : j < 7) : (payload b).getLsbD j = b.getLsbD j := by
  rw [payload, BitVec.getLsbD_extractLsb', decide_eq_true h, Bool.true_and, Nat.zero_add]

/-- Settles O26: the payload of the offered byte is the low group, and its flag is the comparison. -/
theorem offeredByteBits : Obligations.OfferedByteBits := by
  intro x
  refine ⟨fun j hj => ?_, contFlag_encbyte x⟩
  have hlow : payload (encbyte x) = x.setWidth 7 := by
    rw [← BitVec.toNat_inj, payload_encbyte, BitVec.toNat_setWidth]
  rw [← getLsbD_payload _ hj, hlow, BitVec.getLsbD_setWidth, decide_eq_true hj, Bool.true_and]

/-- In IDLE an instruction with the effect of an encode operation latches its code and its value, and changes nothing
else. -/
theorem exec_encodeStarted {i : Instr} {s : State} {code : BitVec 4} {v : Word} (hp : s.blk.phase = .idle)
    (hi : acceptEffect i = startEncode code v) : exec i s = .next (s.encodeStarted code v) := by
  rw [exec_eq, hi, acceptStep_of_idle hp]
  rfl

/-- A 64-bit operand is the whole of ARG (R64, R65). -/
theorem acceptEffect_vencu64 (arg : Word) : acceptEffect (.vencu64 arg) = startEncode 0x9#4 arg := by
  simp only [acceptEffect, resultWord, operand, BitVec.setWidth_eq]

theorem acceptEffect_vencs64 (arg : Word) : acceptEffect (.vencs64 arg) = startEncode 0xB#4 (zzEnc 64 arg) := by
  simp only [acceptEffect, resultWord, operand, BitVec.setWidth_eq]

/-- Settles O24: the effect of each operation in IDLE. -/
theorem encodeStarts : Obligations.EncodeStarts := fun arg _ hp =>
  ⟨rfl, rfl, rfl, rfl, exec_encodeStarted hp rfl, exec_encodeStarted hp (acceptEffect_vencu64 arg),
    exec_encodeStarted hp rfl, exec_encodeStarted hp (acceptEffect_vencs64 arg)⟩

/-- Settles O25, by the answer and by what remains. -/
theorem writeStepRule : Obligations.WriteStepRule := by
  intro s hp
  simp only [fire_write, writeStep_of_enc hp]
  refine ⟨rfl, fun hz => ?_, fun hz => ?_⟩
  · have hlast : encAdvance s.blk = s.blk.respond .ok 0#64 (s.blk.cnt + 1#4) := if_pos hz
    rw [hlast]
    rfl
  · have hmore : encAdvance s.blk = { s.blk with acc := restOf s.blk.acc, cnt := s.blk.cnt + 1#4 } := if_neg hz
    rw [hmore]
    rfl

/-- A `Write` step that ends an operation answers OK or IoFailure (R109). -/
theorem writeStep_status {ans : SnkAnswer} {s t : State} (h : writeStep ans s = .next t)
    (ht : t.blk.phase = .resp) : t.blk.rspStatus = 0#3 ∨ t.blk.rspStatus = 3#3 := by
  obtain ⟨hp, ⟨-, rfl⟩ | ⟨-, rfl⟩⟩ := writeStep_next h
  · exact .inr rfl
  · rw [withBlk_blk] at ht ⊢
    obtain ⟨-, he⟩ | ⟨-, he⟩ := encAdvance_cases s.blk <;> rw [he] at ht ⊢
    · exact .inl rfl
    · cases hp.symm.trans ht

/-! ## The whole run (R101, R102, R104 to R109) -/

/-- `s` once it has accepted an encode of `v` with this code and the sink has taken `k` bytes, none of them the last. -/
def State.encoding (s : State) (rest : List Command) (code : BitVec 4) (v : Word) (k : Nat) : State :=
  State.inEnc { blk := startEncode code v s.blk, env := { s.env with cmds := rest } } (v >>> (7 * k))
    (BitVec.ofNat 4 k) (s.env.snk.drop k) ((varintBytes v).take k)

section Run

variable {i : Instr} {code : BitVec 4} {v : Word}

/-- An encode up to any of its bytes, each answered Ok. -/
theorem runFor_encoding (hi : acceptEffect i = startEncode code v) {s : State} {c : Command} {rest : List Command}
    {more : List SnkAnswer} {k : Nat} (h : s.Offers c rest) (hd : decode c = .ok i) (hk : k < varintLen v)
    (hg : Gives s.env.snk s.env.snkThen (List.replicate k .ok) more) :
    runFor (1 + k) s = .next (s.encoding rest code v k) := by
  have ⟨_, hr, _⟩ := h
  have hrun := runFor_enc_more k { blk := startEncode code v s.blk, env := { s.env with cmds := rest } } rfl hr
    (gives_replicate hg) fun j hj => (lt_varintLen_iff v j).1 (by omega)
  rw [Nat.add_comm, runFor_succ k (step_of_offers_ok h hd), hi, hrun, State.encoding, take_varintBytes hk.le,
    startEncode_acc, startEncode_cnt, BitVec.zero_add]

/-- An encode whose sink answers Ok to `len(v)` bytes completes. -/
theorem encodeCompletes (hi : acceptEffect i = startEncode code v) : EncodeCompletes i code v := by
  intro s c rest more h hd hg
  have ⟨_, hr, _⟩ := h
  obtain ⟨k, hk⟩ := Nat.exists_eq_add_one.2 (varintLen_pos v)
  rw [hk, List.replicate_succ'] at hg
  obtain ⟨hpre, hlast⟩ := gives_append hg
  obtain ⟨hans, rfl⟩ := gives_singleton hlast
  rw [List.length_replicate] at hans ⊢
  have hfits : (v >>> (7 * k)).toNat < 2 ^ 7 := by
    rw [← not_le, ← lt_varintLen_iff]
    omega
  rw [hk, ← Nat.add_assoc, runFor_add 1 (runFor_encoding hi h hd (by omega) hpre),
    runFor_one (step_of_enc_last (s := s.encoding rest code v k) rfl hr hans hfits), varintBytes_eq_take_append hk,
    Nat.add_sub_cancel, State.afterRun, ← List.append_assoc, BitVec.ofNat_add]
  rfl

/-- An encode whose sink fails on a byte ends there. -/
theorem encodeFailsAt (hi : acceptEffect i = startEncode code v) : EncodeFailsAt i code v := by
  intro s c rest more k h hd hk hg
  have ⟨_, hr, _⟩ := h
  obtain ⟨hpre, hlast⟩ := gives_append hg
  obtain ⟨hans, rfl⟩ := gives_singleton hlast
  rw [List.length_replicate] at hans ⊢
  rw [← Nat.add_assoc, runFor_add 1 (runFor_encoding hi h hd hk hpre),
    runFor_one (step_of_enc_fail (s := s.encoding rest code v k) rfl hr hans), State.inEnc, List.append_nil]
  rfl

end Run

/-- Settles O28: each operation's effect is the start of an encode of its value, which completes. -/
theorem encodeWritesItsVarint : Obligations.EncodeWritesItsVarint := fun arg =>
  ⟨encodeCompletes rfl, encodeCompletes (acceptEffect_vencu64 arg), encodeCompletes rfl,
    encodeCompletes (acceptEffect_vencs64 arg)⟩

/-- Settles O29: each operation's effect is the start of an encode of its value, which fails at its byte. -/
theorem sinkFailureEndsEncode : Obligations.SinkFailureEndsEncode :=
  ⟨fun arg => ⟨encodeFailsAt rfl, encodeFailsAt (acceptEffect_vencu64 arg), encodeFailsAt rfl,
    encodeFailsAt (acceptEffect_vencs64 arg)⟩, fun _ _ _ h => writeStep_status h⟩

/-- Settles O30: zero is its own zig-zag, and its varint is one byte long. -/
theorem zeroIsOneZeroByte : Obligations.ZeroIsOneZeroByte := by
  intro s c rest more i h hd hg hi
  have ⟨code, heff⟩ : ∃ code, acceptEffect i = startEncode code 0#64 := by
    obtain rfl | rfl | rfl | rfl := hi <;> exact ⟨_, rfl⟩
  have hcode : code = opField c.cmd := by rw [← acceptEffect_op hd s.blk, heff, startEncode_op]
  have hlen : varintLen 0#64 = 1 := rfl
  have hbytes : varintBytes 0#64 = [0x00#8] := rfl
  have hrun := encodeCompletes heff s c rest more h hd (by rwa [hlen])
  rwa [hlen, hbytes, hcode] at hrun

end Sys2Proof.Machine
end

section
/-! SUPPORT. The whole run of a decode that reads a terminator, and what it reads back from an encode (R110, R129). -/

namespace Sys2Proof.Machine

open Sys2Proof

/-! ## The run of a decode (R120, R121, R129) -/

/-- `s` once it has accepted a decode with this code and has read the bytes `bs`, none of them the last. -/
def State.decoding (s : State) (rest : List Command) (code : BitVec 4) (bs : List Byte) : State :=
  State.inDec { blk := startDecode code s.blk, env := { s.env with cmds := rest } } (BitVec.ofNat 64 (groupSum bs))
    (BitVec.ofNat 4 bs.length) (s.env.src.drop bs.length)

theorem varintWidth_eq_or (op : BitVec 4) : varintWidth op = 32 ∨ varintWidth op = 64 :=
  (varintWidth_cases op).imp And.right And.right

section Run

variable {i : Instr} {code : BitVec 4} {w : Nat}

/-- A decode that has read only continuing bytes, and may read one more. -/
theorem runFor_decoding (hi : acceptEffect i = startDecode code) (hw : varintWidth code = w) {s : State}
    {c : Command} {rest : List Command} {more : List SrcAnswer} {bs : List Byte} (h : s.Offers c rest)
    (hd : decode c = .ok i) (hc : ∀ b ∈ bs, contFlag b = true) (hlen : bs.length < maxBytes w)
    (hg : Gives s.env.src s.env.srcThen (bs.map .byte) more) :
    runFor (1 + bs.length) s = .next (s.decoding rest code bs) := by
  have ⟨_, hr, _⟩ := h
  have hw' : w = 32 ∨ w = 64 := hw ▸ varintWidth_eq_or code
  have hsrc : ∀ j, j < bs.length → s.env.src[j]?.or s.env.srcThen = (bs.map SrcAnswer.byte)[j]? :=
    fun j hj => hg.1 j (by rwa [List.length_map])
  have hrun := runFor_dec_more hw' bs [] { blk := startDecode code s.blk, env := { s.env with cmds := rest } } rfl hr
    hw hsrc hc hlen rfl rfl
  rw [Nat.add_comm, runFor_succ _ (step_of_offers_ok h hd), hi, hrun]
  rfl

/-- A decode that reads a terminator within its permitted bytes completes. -/
theorem decodeCompletes {signed : Bool} (hi : acceptEffect i = startDecode code) (hw : varintWidth code = w)
    (hs : isSigned code = signed) : DecodeCompletes i code w signed := by
  intro s c rest more bs last h hd hc hlast hlen hg
  have ⟨_, hr, _⟩ := h
  have hw' : w = 32 ∨ w = 64 := hw ▸ varintWidth_eq_or code
  rw [List.map_append, List.map_singleton] at hg
  obtain ⟨hpre, hend⟩ := gives_append hg
  obtain ⟨hans, rfl⟩ := gives_singleton hend
  rw [List.length_map] at hans ⊢
  have hsum : decAccumulate w last (s.decoding rest code bs).blk = BitVec.ofNat w (groupSum (bs ++ [last])) :=
    decAccumulate_groupSum last hw' hlen rfl rfl
  have hval : resultWord (decResult w code (decAccumulate w last (s.decoding rest code bs).blk)) =
      decodedWord w signed (bs ++ [last]) := by
    rw [hsum, decResult, hs]
    rfl
  have hop : (s.decoding rest code bs).blk.op = code := rfl
  rw [← Nat.add_assoc, runFor_add 1 (runFor_decoding hi hw h hd hc hlen hpre),
    runFor_one (step_of_dec_last (s := s.decoding rest code bs) rfl hr hans hlast), hop, hw, hval, State.afterRun,
    List.append_nil, BitVec.ofNat_add]
  rfl

end Run

/-! ## Reading back what an encode wrote (R110) -/

theorem groupSum_varintBytes (v : Word) : groupSum (varintBytes v) = v.toNat := by
  have hsplit := List.dropLast_append_getLast (varintBytes_ne_nil v)
  obtain ⟨-, hsum⟩ := (varintBytes_eq_iff_canonical _ _ v).1 hsplit.symm
  rwa [hsplit] at hsum

/-- A decode of the varint of a value reads it whole. -/
theorem decodedWord_varintBytes {w : Nat} (hw : w ≤ 64) (signed : Bool) (u : BitVec w) :
    decodedWord w signed (varintBytes (u.setWidth 64)) = (if signed then zzDec w u else u).setWidth 64 := by
  have hu : BitVec.ofNat w (u.setWidth 64).toNat = u := by
    rw [BitVec.toNat_setWidth_of_le hw, BitVec.ofNat_toNat, BitVec.setWidth_eq]
  simp only [decodedWord, groupSum_varintBytes, hu]

/-- A value of `w` bits has a varint of at most MAX_BYTES(w) bytes (R70). -/
theorem varintLen_setWidth_le {w : Nat} (hw : 0 < w) (u : BitVec w) : varintLen (u.setWidth 64) ≤ maxBytes w := by
  have hgroups : w ≤ 7 * maxBytes w := not_lt.1 (mt lt_maxBytes_iff.2 (lt_irrefl _))
  refine (varintLen_le_iff _ (lt_maxBytes_iff.2 hw)).2 ?_
  calc (u.setWidth 64).toNat < 2 ^ w := resultWord_lt u
    _ ≤ 2 ^ (7 * maxBytes w) := Nat.pow_le_pow_right (by decide) hgroups

/-- A decode offered the varint of a `w`-bit value reads those bytes and returns the value, undoing the zig-zag when
signed. -/
theorem runFor_decode_varintBytes {d : Instr} {code : BitVec 4} {w : Nat} {signed : Bool}
    (hdec : DecodeCompletes d code w signed) (hw : 0 < w) (hw64 : w ≤ 64) (u : BitVec w) {s : State} {c : Command}
    {rest : List Command} {more : List SrcAnswer} (h : s.Offers c rest) (hd : decode c = .ok d)
    (hg : Gives s.env.src s.env.srcThen ((varintBytes (u.setWidth 64)).map .byte) more) :
    ∃ m t, runFor m s = .next t ∧ t.blk.phase = .resp ∧ t.blk.rspStatus = 0#3 ∧
      t.blk.rspValue = (if signed then zzDec w u else u).setWidth 64 ∧
      t.blk.rspCount = BitVec.ofNat 4 (varintLen (u.setWidth 64)) ∧ t.env.src = more := by
  have hvalue := decodedWord_varintBytes hw64 signed u
  have hlen := length_varintBytes (u.setWidth 64)
  have hmax := varintLen_setWidth_le hw u
  obtain ⟨bs, last, hsplit⟩ : ∃ bs last, varintBytes (u.setWidth 64) = bs ++ [last] :=
    ⟨_, _, (List.dropLast_append_getLast (varintBytes_ne_nil _)).symm⟩
  obtain ⟨⟨hcont, hlast, -⟩, -⟩ := (varintBytes_eq_iff_canonical bs last _).1 hsplit
  rw [hsplit] at hg hvalue hlen
  rw [List.length_append, List.length_singleton] at hlen
  rw [← hlen] at hmax ⊢
  exact ⟨_, _, hdec s c rest more bs last h hd hcont hlast hmax hg, rfl, rfl, hvalue, rfl, rfl⟩

/-- The count register holds the length of any varint. -/
theorem toNat_ofNat_varintLen (v : Word) : (BitVec.ofNat 4 (varintLen v)).toNat = (varintBytes v).length := by
  rw [length_varintBytes, BitVec.toNat_ofNat, Nat.mod_eq_of_lt ((varintLen_le_ten v).trans_lt (by decide))]

/-- An encode of a `w`-bit value and a decode that undoes it are a round trip. -/
theorem roundTrips {i : Word → Instr} {d : Instr} {code code' : BitVec 4} {w : Nat} {signed : Bool}
    {value : Word → BitVec w} (henc : ∀ arg, acceptEffect (i arg) = startEncode code (resultWord (value arg)))
    (hdec : DecodeCompletes d code' w signed) (hw : 0 < w) (hw64 : w ≤ 64)
    (hvalue : ∀ arg, (if signed then zzDec w (value arg) else value arg) = arg.setWidth w) : RoundTrips i d w := by
  intro arg s c rest oks h hd hg
  rw [← Nat.add_sub_cancel' (varintLen_le_ten (resultWord (value arg))), List.replicate_add] at hg
  obtain ⟨hoks, -⟩ := gives_append hg
  refine ⟨_, _, varintBytes (resultWord (value arg)), encodeCompletes (henc arg) s c rest _ h hd hoks, rfl, rfl, rfl,
    toNat_ofNat_varintLen _, fun u c' rest' more hu hd' hg' => ?_⟩
  obtain ⟨m, t, hrun, hp, hst, hval, hcnt, hsrc⟩ := runFor_decode_varintBytes hdec hw hw64 (value arg) hu hd' hg'
  rw [hvalue] at hval
  exact ⟨m, t, hrun, hp, hst, hval, hcnt ▸ toNat_ofNat_varintLen _, hsrc⟩

/-- Settles O38: the run of each encode and of its decode, and zig-zag undone for the signed pairs. -/
theorem roundTripRecoversOperand : Obligations.RoundTripRecoversOperand :=
  ⟨roundTrips (value := operand 32) (fun _ => rfl) (decodeCompletes rfl rfl rfl) (by decide) (by decide)
      fun _ => rfl,
    roundTrips (value := operand 64) (fun _ => rfl) (decodeCompletes rfl rfl rfl) (by decide) (by decide)
      fun _ => rfl,
    roundTrips (value := fun a => zzEnc 32 (operand 32 a)) (fun _ => rfl) (decodeCompletes rfl rfl rfl) (by decide)
      (by decide) fun _ => zzDec_zzEnc _,
    roundTrips (value := fun a => zzEnc 64 (operand 64 a)) (fun _ => rfl) (decodeCompletes rfl rfl rfl) (by decide)
      (by decide) fun _ => zzDec_zzEnc _⟩

end Sys2Proof.Machine
end

section
/-! SUPPORT. The varint decode family (42_varint_decode.md): the start of a decode, its `Read` step case by case, and the
runs that end without a value, in Overflow or by the source's refusal (R120, R121, R123, R129, R130). -/

namespace Sys2Proof.Machine

open Sys2Proof

/-! ## The start of a decode (R120) -/

/-- In IDLE an instruction with the effect of a decode operation starts a decode of its code, and changes nothing else. -/
theorem exec_decodeStarted {i : Instr} {s : State} {code : BitVec 4} (hp : s.blk.phase = .idle)
    (hi : acceptEffect i = startDecode code) : exec i s = .next (s.decodeStarted code) := by
  rw [exec_eq, hi, acceptStep_of_idle hp]
  rfl

/-- The bytes 0x0C to 0x0F are those of the varint decodes (R60, R62). -/
theorem opField_of_decodeByte {cmd : Byte} (hlo : 0x0C ≤ cmd.toNat) (hhi : cmd.toNat ≤ 0x0F) :
    isVarint (opField cmd) = true ∧ isDecode (opField cmd) = true := by
  revert cmd
  decide

/-- A varint decode carries no operand (R64). -/
theorem decodeOp_arg_irrelevant {op : BitVec 4} (hv : isVarint op = true) (hd : isDecode op = true) (a b : Word) :
    decodeOp op a = decodeOp op b := by
  rw [isVarint] at hv
  rw [isDecode] at hd
  rw [decodeOp, decodeOp, hv, hd]
  cases op.getLsbD 1 <;> cases op.getLsbD 0 <;> rfl

/-- The four decode bytes decode alike whatever ARG (R120). -/
theorem decode_arg_irrelevant (cmd : Byte) (a b : Word) (hlo : 0x0C ≤ cmd.toNat) (hhi : cmd.toNat ≤ 0x0F) :
    decode ⟨cmd, a⟩ = decode ⟨cmd, b⟩ := by
  have ⟨hv, hd⟩ := opField_of_decodeByte hlo hhi
  have hlegal : cmd.toNat < 16 := by omega
  rw [decode_of_legal (c := ⟨cmd, a⟩) hlegal, decode_of_legal (c := ⟨cmd, b⟩) hlegal,
    decodeOp_arg_irrelevant hv hd a b]

/-- Settles O32: the effect of each operation in IDLE, and the four decode bytes. -/
theorem decodeStarts : Obligations.DecodeStarts :=
  ⟨⟨rfl, rfl, rfl, rfl⟩,
    fun _ hp => ⟨exec_decodeStarted hp rfl, exec_decodeStarted hp rfl, exec_decodeStarted hp rfl,
      exec_decodeStarted hp rfl⟩,
    decode_arg_irrelevant⟩

/-! ## The `Read` step (R121) -/

/-- The error a source answer that is no byte raises (R121). -/
def SrcAnswer.error? : SrcAnswer → Option Err
  | .byte _ => none
  | .endInput => some .endOfInput
  | .ioFail => some .ioFailure

/-- An answer that is no byte ends a decode with its error and the count so far. -/
theorem readStep_of_error {ans : SrcAnswer} {e : Err} {s : State} (hp : s.blk.phase = .dec)
    (he : ans.error? = some e) : readStep ans s = .next (s.withBlk (s.blk.raise e s.blk.cnt)) := by
  rw [readStep_of_dec hp]
  cases ans with
  | byte x => cases he
  | endInput | ioFail => cases he; rfl

/-- A byte does to the registers what `decAdvance` says, and nothing else. -/
theorem readStep_byte {s : State} (x : Byte) (hp : s.blk.phase = .dec) :
    readStep (.byte x) s = .next (s.withBlk (decAdvance (varintWidth s.blk.op) x s.blk)) :=
  readStep_of_dec hp

section Advance

variable {w : Nat} {x : Byte} {b : Block}

theorem decAdvance_of_terminator (hc : contFlag x = false) : decAdvance w x b =
    b.respond .ok (resultWord (decResult w b.op (decAccumulate w x b))) (b.cnt + 1#4) :=
  if_pos hc

theorem decAdvance_of_overflow (hc : contFlag x = true) (hm : (b.cnt + 1#4).toNat = maxBytes w) :
    decAdvance w x b = b.raise .overflow (b.cnt + 1#4) := by
  rw [decAdvance, if_neg (by simp [hc]), if_pos hm]

theorem decAdvance_of_more (hc : contFlag x = true) (hm : (b.cnt + 1#4).toNat ≠ maxBytes w) :
    decAdvance w x b = { b with acc := resultWord (decAccumulate w x b), cnt := b.cnt + 1#4 } := by
  rw [decAdvance, if_neg (by simp [hc]), if_neg hm]

/-- Within the width, the partial result with one more group as bits (R9, R121). -/
theorem decAccumulate_of_lt (hn : 7 * b.cnt.toNat < w) :
    decAccumulate w x b = b.acc.setWidth w ||| ((payload x).setWidth w <<< (7 * b.cnt.toNat)) := by
  rw [decAccumulate, Config.groupBits, shiftLeftW_of_lt _ hn, operand]

end Advance

/-- The two widths of a varint operation, with its byte bound (R7, R61). -/
theorem width_and_bound {op : BitVec 4} {w m : Nat}
    (h : (op.getLsbD 0 = false ∧ w = 32 ∧ m = 5) ∨ (op.getLsbD 0 = true ∧ w = 64 ∧ m = 10)) :
    varintWidth op = w ∧ maxBytes w = m ∧ w ≤ 64 := by
  obtain ⟨h0, rfl, rfl⟩ | ⟨h0, rfl, rfl⟩ := h
  · exact ⟨by rw [varintWidth, h0]; rfl, rfl, by decide⟩
  · exact ⟨by rw [varintWidth, h0]; rfl, rfl, by decide⟩

/-- Settles O33, by the answer and, for a byte, by bit 7 and the count. -/
theorem readStepRule : Obligations.ReadStepRule := by
  refine ⟨fun s hp => ⟨(readStep_of_error (ans := .endInput) hp rfl).trans rfl,
    (readStep_of_error (ans := .ioFail) hp rfl).trans rfl⟩, ?_⟩
  intro s w m hp hwm hn b acc hacc
  obtain ⟨hw, hm, h64⟩ := width_and_bound hwm
  have hsucc : (s.blk.cnt + 1#4).toNat = s.blk.cnt.toNat + 1 := cnt_succ_toNat (by omega)
  have hgroup : decAccumulate w b s.blk = acc := (decAccumulate_of_lt hn).trans hacc.symm
  simp only [fire_read, readStep_byte b hp, hw]
  refine ⟨fun hc => ?_, fun hc hlast => ?_, fun hc hmore => ?_⟩
  · rw [decAdvance_of_terminator hc, hgroup]
    rfl
  · rw [decAdvance_of_overflow hc (by omega)]
    rfl
  · rw [decAdvance_of_more hc (by omega), hgroup]
    rfl

/-! ## A byte that leaves a decode in DEC (R121, R129) -/

/-- A read that leaves the block in DEC read a byte with bit 7 set that is not the last permitted one. -/
theorem readStep_stays {x : Byte} {s t : State} (h : readStep (.byte x) s = .next t) (ht : t.blk.phase = .dec) :
    s.blk.phase = .dec ∧ (s.blk.cnt + 1#4).toNat ≠ maxBytes (varintWidth s.blk.op) ∧
      t.blk.acc = resultWord (decAccumulate (varintWidth s.blk.op) x s.blk) ∧ t.blk.cnt = s.blk.cnt + 1#4 := by
  obtain ⟨hp, ⟨hans, -⟩ | ⟨hans, -⟩ | ⟨y, hans, rfl⟩⟩ := readStep_next h
  · cases hans
  · cases hans
  · cases hans
    rw [withBlk_blk] at ht ⊢
    obtain ⟨-, hadv⟩ | ⟨-, -, hadv⟩ | ⟨-, hm, hadv⟩ := decAdvance_cases (varintWidth s.blk.op) x s.blk
    · rw [hadv] at ht
      cases ht
    · rw [hadv] at ht
      cases ht
    · rw [hadv]
      exact ⟨hp, hm, rfl, rfl⟩

/-- A group above `k` bits already read stays below its own last bit. -/
theorem add_group_lt {a p k : Nat} (ha : a < 2 ^ k) (hp : p < 2 ^ 7) : a + p * 2 ^ k < 2 ^ (k + 7) :=
  calc a + p * 2 ^ k < (p + 1) * 2 ^ k := by rw [Nat.add_one_mul, Nat.add_comm]; exact Nat.add_lt_add_left ha _
    _ ≤ 2 ^ 7 * 2 ^ k := Nat.mul_le_mul_right _ hp
    _ = 2 ^ (k + 7) := by rw [← pow_add, Nat.add_comm]

/-- A group that lies wholly within the width joins ACC with no bit lost. -/
theorem decAccumulate_toNat_of_fits {w : Nat} {b : Block} (x : Byte) (hw : w ≤ 64)
    (hn : 7 * b.cnt.toNat + 7 ≤ w) (ha : b.acc.toNat < 2 ^ (7 * b.cnt.toNat)) :
    (decAccumulate w x b).toNat = b.acc.toNat + (x.toNat % 2 ^ 7) * 2 ^ (7 * b.cnt.toNat) := by
  have hfit : b.acc.toNat + (x.toNat % 2 ^ 7) * 2 ^ (7 * b.cnt.toNat) < 2 ^ w :=
    (add_group_lt ha (Nat.mod_lt _ (by decide))).trans_le (Nat.pow_le_pow_right (by decide) hn)
  rw [decAccumulate_toNat x hw (by omega) (by omega) ha, Nat.mod_eq_of_lt hfit]

/-- Settles O34: a byte that is not the last permitted one leaves room for its whole group. -/
theorem readByteAddsItsGroup : Obligations.ReadByteAddsItsGroup := by
  intro s t b ⟨_, _, hdec, _⟩ h ht
  obtain ⟨hp, hm, hacc, hcnt⟩ := readStep_stays h ht
  obtain ⟨hop, -, hlt, ha⟩ := hdec hp
  have hsucc := cnt_succ_of_lt_maxBytes hlt
  rw [← opWidth_of_varint hop] at hm hacc
  have hnext : 7 * (s.blk.cnt.toNat + 1) < opWidth s.blk.op := lt_maxBytes_iff.1 (by omega)
  rw [Nat.min_eq_right (by omega)] at ha
  rw [hacc, hcnt, hsucc, resultWord_toNat (opWidth_le _),
    decAccumulate_toNat_of_fits b (opWidth_le _) (by omega) ha]
  exact ⟨rfl, rfl⟩

/-! ## Payload bits beyond the width (R123) -/

/-- Bytes that agree on the bits that fall within the width join ACC alike. -/
theorem decAccumulate_congr {w : Nat} {b : Block} {x y : Byte} (hn : 7 * b.cnt.toNat < w)
    (h : ∀ j, 7 * b.cnt.toNat + j < w → j < 7 → x.getLsbD j = y.getLsbD j) :
    decAccumulate w x b = decAccumulate w y b := by
  rw [decAccumulate_of_lt hn, decAccumulate_of_lt hn]
  congr 1
  ext i hi
  simp only [← BitVec.getLsbD_eq_getElem, BitVec.getLsbD_shiftLeft, BitVec.getLsbD_setWidth]
  by_cases hlow : i < 7 * b.cnt.toNat
  · simp [hlow]
  · by_cases hj : i - 7 * b.cnt.toNat < 7
    · rw [getLsbD_payload x hj, getLsbD_payload y hj, h _ (by omega) hj]
    · rw [BitVec.getLsbD_of_ge _ _ (by omega), BitVec.getLsbD_of_ge _ _ (by omega)]

/-- A terminator reads as itself under a mask that keeps the bits that fall within the width. -/
theorem readStep_and_mask {s : State} {x m : Byte} (hp : s.blk.phase = .dec) (hc : contFlag x = false)
    (hn : 7 * s.blk.cnt.toNat < varintWidth s.blk.op)
    (hm : ∀ j, j < varintWidth s.blk.op - 7 * s.blk.cnt.toNat → m.getLsbD j = true) :
    readStep (.byte x) s = readStep (.byte (x &&& m)) s := by
  have hc' : contFlag (x &&& m) = false := by
    rw [contFlag, BitVec.getLsbD_and, ← contFlag, hc, Bool.false_and]
  have hgroup : decAccumulate (varintWidth s.blk.op) (x &&& m) s.blk =
      decAccumulate (varintWidth s.blk.op) x s.blk :=
    decAccumulate_congr hn fun j hj _ => by rw [BitVec.getLsbD_and, hm j (by omega), Bool.and_true]
  rw [readStep_byte x hp, readStep_byte _ hp, decAdvance_of_terminator hc, decAdvance_of_terminator hc', hgroup]

/-- A terminator is never an error. -/
theorem readStep_terminator_ok {s : State} {x : Byte} (hp : s.blk.phase = .dec) (hc : contFlag x = false) :
    ∃ t, readStep (.byte x) s = .next t ∧ t.blk.rspStatus = 0#3 :=
  ⟨_, readStep_byte x hp, by rw [withBlk_blk, decAdvance_of_terminator hc]; rfl⟩

/-- Settles O36: at the last group of each width the mask keeps the bits that fall within it. -/
theorem bitsBeyondWidthDiscarded : Obligations.BitsBeyondWidthDiscarded := by
  intro s b hp hc
  refine ⟨fun h0 hcnt => ⟨?_, readStep_terminator_ok hp hc⟩, fun h0 hcnt => ⟨?_, readStep_terminator_ok hp hc⟩⟩
  · have ⟨hw, _, _⟩ := width_and_bound (.inl ⟨h0, rfl, rfl⟩)
    refine readStep_and_mask hp hc ?_ ?_ <;> rw [hw, hcnt] <;> decide
  · have ⟨hw, _, _⟩ := width_and_bound (.inr ⟨h0, rfl, rfl⟩)
    refine readStep_and_mask hp hc ?_ ?_ <;> rw [hw, hcnt] <;> decide

/-! ## Overflow (R130) -/

/-- A byte raises Overflow exactly when it has bit 7 set and is the last permitted one. -/
theorem decAdvance_overflows_iff {w : Nat} {x : Byte} {b : Block} (hp : b.phase = .dec) :
    ((decAdvance w x b).phase = .resp ∧ (decAdvance w x b).rspStatus = 2#3) ↔
      contFlag x = true ∧ (b.cnt + 1#4).toNat = maxBytes w := by
  obtain ⟨hc, h⟩ | ⟨hc, hm, h⟩ | ⟨hc, hm, h⟩ := decAdvance_cases w x b <;> rw [h]
  · simp [hc, Status.code]
  · simp [hc, hm, Status.code]
  · exact iff_of_false (fun ⟨hresp, _⟩ => by cases hp.symm.trans hresp) fun ⟨_, hlast⟩ => hm hlast

/-- Settles O37, by the answer: only a byte can raise Overflow. -/
theorem overflowFallsAtLastGroup : Obligations.OverflowFallsAtLastGroup := by
  intro s t ans ⟨_, _, hdec, _⟩ h
  refine ⟨?_, fun ht => by simp [Block.ports, ht]⟩
  obtain ⟨hp, ⟨rfl, rfl⟩ | ⟨rfl, rfl⟩ | ⟨x, rfl, rfl⟩⟩ := readStep_next h
  · simp [Status.code]
  · simp [Status.code]
  · obtain ⟨hop, -, hlt, -⟩ := hdec hp
    rw [withBlk_blk, decAdvance_overflows_iff hp, ← opWidth_of_varint hop, cnt_succ_of_lt_maxBytes hlt]
    simp [contFlag]

/-! ## The runs of a decode that end in an error (R129) -/

section Run

variable {i : Instr} {code : BitVec 4} {w : Nat}

/-- A decode that reads MAX_BYTES(w) bytes all with bit 7 set overflows at the last of them. -/
theorem decodeOverflows (hi : acceptEffect i = startDecode code) (hw : varintWidth code = w) :
    DecodeOverflows i code w := by
  intro s c rest more bs last h hd hc hlen hg
  have ⟨_, hr, _⟩ := h
  have h10 : bs.length < 10 := cnt_lt_ten (op := code) (by rw [hw]; omega)
  obtain ⟨hbs, hlast⟩ := List.forall_mem_append.1 hc
  rw [List.map_append, List.map_singleton] at hg
  obtain ⟨hpre, hend⟩ := gives_append hg
  obtain ⟨hans, rfl⟩ := gives_singleton hend
  rw [List.length_map] at hans ⊢
  have hcnt : ((s.decoding rest code bs).blk.cnt + 1#4).toNat =
      maxBytes (varintWidth (s.decoding rest code bs).blk.op) := by
    change (BitVec.ofNat 4 bs.length + 1#4).toNat = maxBytes (varintWidth code)
    rw [hw, ← hlen, ← BitVec.ofNat_add, BitVec.toNat_ofNat, Nat.mod_eq_of_lt (by omega)]
  rw [← hlen, ← Nat.add_assoc, runFor_add 1 (runFor_decoding hi hw h hd hbs (by omega) hpre),
    runFor_one (step_of_dec_overflow (s := s.decoding rest code bs) rfl hr hans (hlast last (by simp)) hcnt),
    State.afterRun, List.append_nil, BitVec.ofNat_add]
  rfl

/-- A decode whose source answers with no byte ends there with that answer's error and the bytes read so far. -/
theorem runFor_decode_error (hi : acceptEffect i = startDecode code) (hw : varintWidth code = w) {s : State}
    {c : Command} {rest : List Command} {more : List SrcAnswer} {bs : List Byte} {ans : SrcAnswer} {e : Err}
    (h : s.Offers c rest) (hd : decode c = .ok i) (hc : ∀ b ∈ bs, contFlag b = true) (hlen : bs.length < maxBytes w)
    (he : ans.error? = some e) (hg : Gives s.env.src s.env.srcThen (bs.map .byte ++ [ans]) more) :
    runFor (1 + (bs.length + 1)) s =
      .next (s.afterRun rest code (BitVec.ofNat 64 (groupSum bs)) bs.length (.err e) 0#64 bs.length
        more s.env.snk []) := by
  have ⟨_, hr, _⟩ := h
  obtain ⟨hpre, hend⟩ := gives_append hg
  obtain ⟨hans, rfl⟩ := gives_singleton hend
  rw [List.length_map] at hans ⊢
  have hstep := (step_of_dec (s := s.decoding rest code bs) rfl hr hans).trans (readStep_of_error rfl he)
  rw [← Nat.add_assoc, runFor_add 1 (runFor_decoding hi hw h hd hc hlen hpre), runFor_one hstep, State.afterRun,
    List.append_nil]
  rfl

theorem decodeCutShort (hi : acceptEffect i = startDecode code) (hw : varintWidth code = w) :
    DecodeCutShort i code w := fun _ _ _ _ _ h hd hc hlen =>
  ⟨runFor_decode_error hi hw h hd hc hlen rfl, runFor_decode_error hi hw h hd hc hlen rfl⟩

end Run

/-- Settles O35: each operation's effect is the start of a decode, which completes, overflows or is cut short. -/
theorem decodeClosedForm : Obligations.DecodeClosedForm :=
  ⟨⟨decodeCompletes rfl rfl rfl, decodeCompletes rfl rfl rfl, decodeCompletes rfl rfl rfl,
      decodeCompletes rfl rfl rfl⟩,
    ⟨decodeOverflows rfl rfl, decodeOverflows rfl rfl, decodeOverflows rfl rfl, decodeOverflows rfl rfl⟩,
    ⟨decodeCutShort rfl rfl, decodeCutShort rfl rfl, decodeCutShort rfl rfl, decodeCutShort rfl rfl⟩⟩

end Sys2Proof.Machine
end

section
/-! SUPPORT. Errors and completion (60_exceptions.md): how each kind of step ends an operation, the one way an error is
taken, and the delivery of a response (R141, R142, R143, R147). -/

namespace Sys2Proof.Machine

open Sys2Proof

/-! ## Which kind of step raises which status (R141, R142) -/

/-- Only a zig-zag operation ends in its `Accept` step, and always in OK (R92). -/
theorem acceptEffect_ends_ok {i : Instr} {b : Block} (h : (acceptEffect i b).phase = .resp) :
    (encode i).cmd.toNat < 8 ∧ (acceptEffect i b).rspStatus = 0#3 := by
  cases i with
  | zzenc8 a | zzenc16 a | zzenc32 a | zzenc64 a | zzdec8 a | zzdec16 a | zzdec32 a | zzdec64 a =>
    exact ⟨by simp [encode, Instr.cmdByte], rfl⟩
  | vencu32 a | vencu64 a | vencs32 a | vencs64 a | vdecu32 | vdecu64 | vdecs32 | vdecs64 => cases h

/-- A byte the sink took ends an encode only in OK (R100). -/
theorem encAdvance_ends_ok {b : Block} (hp : b.phase = .enc) (h : (encAdvance b).phase = .resp) :
    (encAdvance b).rspStatus = 0#3 := by
  obtain ⟨-, he⟩ | ⟨-, he⟩ := encAdvance_cases b <;> rw [he] at h ⊢
  · rfl
  · cases hp.symm.trans h

/-- A byte that ends a decode ends it in OK when its bit 7 is clear, and in Overflow when it is set (R121). -/
theorem decAdvance_ends {w : Nat} {x : Byte} {b : Block} (hp : b.phase = .dec) (h : (decAdvance w x b).phase = .resp) :
    (contFlag x = false ∧ (decAdvance w x b).rspStatus = 0#3) ∨
      (contFlag x = true ∧ decAdvance w x b = b.raise .overflow (b.cnt + 1#4)) := by
  obtain ⟨hc, he⟩ | ⟨hc, -, he⟩ | ⟨-, -, he⟩ := decAdvance_cases w x b <;> rw [he] at h ⊢
  · exact .inl ⟨hc, rfl⟩
  · exact .inr ⟨hc, rfl⟩
  · cases hp.symm.trans h

theorem fire_accept_status {c : Command} {s t : State} (h : fire (.accept c) s = .next t)
    (ht : t.blk.phase = .resp) :
    (16 ≤ c.cmd.toNat → t.blk.rspStatus = 4#3) ∧ (c.cmd.toNat < 16 → c.cmd.toNat < 8 ∧ t.blk.rspStatus = 0#3) := by
  obtain ⟨-, ⟨i, hd, rfl⟩ | ⟨⟨e, hd⟩, rfl⟩⟩ := acceptCommand_next h
  · have hlegal := (decode_eq_ok hd).1
    refine ⟨fun hres => absurd hlegal (by omega), fun _ => ?_⟩
    rw [← encode_cmd_of_decode hd]
    exact acceptEffect_ends_ok ht
  · exact ⟨fun _ => rfl, fun hlegal => absurd (decode_eq_error hd) (by omega)⟩

theorem fire_write_status {ans : SnkAnswer} {s t : State} (h : fire (.write ans) s = .next t)
    (ht : t.blk.phase = .resp) :
    (ans = .ioFail → t.blk.rspStatus = 3#3) ∧ (ans = .ok → t.blk.rspStatus = 0#3) := by
  obtain ⟨hp, ⟨rfl, rfl⟩ | ⟨rfl, rfl⟩⟩ := writeStep_next h
  · exact ⟨fun _ => rfl, nofun⟩
  · exact ⟨nofun, fun _ => encAdvance_ends_ok hp ht⟩

theorem fire_read_status {ans : SrcAnswer} {s t : State} (h : fire (.read ans) s = .next t)
    (ht : t.blk.phase = .resp) :
    (ans = .endInput → t.blk.rspStatus = 1#3) ∧ (ans = .ioFail → t.blk.rspStatus = 3#3) ∧
      (∀ b, ans = .byte b → t.blk.rspStatus = if contFlag b then 2#3 else 0#3) := by
  obtain ⟨hp, ⟨rfl, rfl⟩ | ⟨rfl, rfl⟩ | ⟨x, rfl, rfl⟩⟩ := readStep_next h
  · exact ⟨fun _ => rfl, nofun, nofun⟩
  · exact ⟨nofun, fun _ => rfl, nofun⟩
  · refine ⟨nofun, nofun, fun b hb => ?_⟩
    cases hb
    rw [withBlk_blk] at ht ⊢
    obtain ⟨hc, hst⟩ | ⟨hc, he⟩ := decAdvance_ends hp ht
    · rw [hst, hc]; rfl
    · rw [he, hc]; rfl

/-- Settles O41: the status of each kind of step that can end an operation. -/
theorem statusByKindOfStep : Obligations.StatusByKindOfStep :=
  ⟨fun _ _ _ => fire_accept_status, fun _ _ _ => fire_write_status, fun _ _ _ => fire_read_status⟩

/-! ## The one way an error is taken (R143) -/

/-- A step that ends an operation with a status other than OK is `raise`, in the environment as it is. -/
theorem fire_error_is_raise {e : Event} {s t : State} (h : fire e s = .next t) (ht : t.blk.phase = .resp)
    (hst : t.blk.rspStatus ≠ 0#3) : ∃ err n, t = s.withBlk (s.blk.raise err n) := by
  cases e with
  | accept c =>
    obtain ⟨-, ⟨i, -, rfl⟩ | ⟨-, rfl⟩⟩ := acceptCommand_next h
    · exact absurd (acceptEffect_ends_ok ht).2 hst
    · exact ⟨_, _, rfl⟩
  | write a =>
    obtain ⟨hp, ⟨-, rfl⟩ | ⟨-, rfl⟩⟩ := writeStep_next h
    · exact ⟨_, _, rfl⟩
    · exact absurd (encAdvance_ends_ok hp ht) hst
  | read a =>
    obtain ⟨hp, ⟨-, rfl⟩ | ⟨-, rfl⟩ | ⟨x, -, rfl⟩⟩ := readStep_next h
    · exact ⟨_, _, rfl⟩
    · exact ⟨_, _, rfl⟩
    · obtain ⟨-, hok⟩ | ⟨-, he⟩ := decAdvance_ends hp ht
      · exact absurd hok hst
      · exact ⟨_, _, congrArg s.withBlk he⟩
  | deliver => obtain ⟨-, -, rfl⟩ := deliver_next h; cases ht
  | reset => cases h; cases ht

/-- Settles O42: the offered step is `raise`, and the environment it leaves has the same sink. -/
theorem errorEntryWritesOnlyTheResponse : Obligations.ErrorEntryWritesOnlyTheResponse := by
  intro s t h _ _ ht hst
  obtain ⟨e, v, ho, hf⟩ := offer_of_step_next h
  obtain ⟨err, n, rfl⟩ := fire_error_is_raise hf ht hst
  have hsink : v.sink = s.env.sink := by rw [(offer_eq_event ho).2]
  exact ⟨rfl, hsink⟩

/-! ## The delivery of a response (R147, I12) -/

/-- Settles O43: a response within the invariants is one the block can produce, and a ready host takes it. -/
theorem deliverReturnsToIdle : Obligations.DeliverReturnsToIdle := by
  intro s ⟨hl, _, _, _⟩ hp hr hready
  rw [step_of_offer (offer_of_resp hr hp hready)]
  exact deliver_of_resp hp ((response_produced_iff s.blk).2 hl)

/-- A response the block cannot produce is refused at `Deliver` (log 12). -/
theorem deliver_of_not_produced {s : State} (hp : s.blk.phase = .resp) (h : ¬ s.blk.response.produced = true) :
    deliver s = .refused .responseNeverProduced := by
  unfold deliver
  rw [hp]
  exact if_neg h

/-- Settles O44: a status of 5 or more or a count of 11 or more is out of the range of R33. -/
theorem responseNeverProducedIsRefused : Obligations.ResponseNeverProducedIsRefused := by
  intro s hp h
  refine deliver_of_not_produced hp ?_
  rw [response_produced_iff]
  omega

end Sys2Proof.Machine
end

section
/-! SUPPORT. Reset and bounded work (70_reset_and_hazards.md): the Reset step, the command port while the block is busy,
and the number of steps from an offered command to its response (R160 to R162, R164, R169). -/

namespace Sys2Proof.Machine

open Sys2Proof

/-! ## The Reset step and the step after it (R160 to R162) -/

/-- Settles O46: with `rst` high the offered step is Reset, in the environment past that level. -/
theorem resetClearsEveryRegister : Obligations.ResetClearsEveryRegister := by
  intro s more h
  have hr : s.env.rstHigh = true := by rw [Env.rstHigh, h]; rfl
  rw [step_of_offer (offer_of_high hr), Env.passRst, h]
  rfl

/-- In IDLE only Reset and `Accept` are enabled (R21). -/
theorem fire_next_of_idle {s t : State} {e : Event} (hp : s.blk.phase = .idle) (h : fire e s = .next t) :
    e = .reset ∨ ∃ c, e = .accept c := by
  cases e with
  | reset => exact .inl rfl
  | accept c => exact .inr ⟨c, rfl⟩
  | write a => cases hp.symm.trans (writeStep_next h).1
  | read a => cases hp.symm.trans (readStep_next h).1
  | deliver => cases hp.symm.trans (deliver_next h).1

/-- Settles O47: the reset block is in IDLE. -/
theorem firstStepAfterResetIsAccept : Obligations.FirstStepAfterResetIsAccept := by
  intro s hs
  have hp : s.blk.phase = .idle := by rw [hs]; rfl
  exact ⟨fun _ _ => fire_next_of_idle hp, fun c => (fire_accept_enabled_iff c s).2 hp⟩

/-! ## The command port (R164) -/

/-- Settles O11: every instruction, and every command, is an `Accept` step. -/
theorem commandNotAcceptedWhileBusy : Obligations.CommandNotAcceptedWhileBusy := fun s hp =>
  ⟨fun i => (exec_eq i s).trans (acceptStep_of_busy hp), fun c => (fire_accept c s).trans (acceptStep_of_busy hp)⟩

/-- Outside IDLE a step with `rst` low leaves the offered commands alone. -/
theorem step_keeps_cmds {s t : State} (h : step s = .next t) (hr : s.env.rstHigh = false)
    (hp : s.blk.phase ≠ .idle) : t.env.cmds = s.env.cmds := by
  obtain ⟨hr', -⟩ | ⟨-, hidle, -⟩ | ⟨-, -, a, -, ⟨-, he⟩ | ⟨-, he⟩⟩ | ⟨-, -, he⟩ | ⟨-, -, he⟩ := step_environment h
  · rw [hr] at hr'; cases hr'
  · exact absurd hidle hp
  all_goals rw [he]; rfl

/-- In IDLE a step with `rst` low takes the first offered command. -/
theorem step_takes_command {s t : State} (h : step s = .next t) (hr : s.env.rstHigh = false)
    (hp : s.blk.phase = .idle) : ∃ c, s.env.cmds = c :: t.env.cmds := by
  obtain ⟨hr', -⟩ | ⟨-, -, c, v, hn, ⟨i, -, rfl⟩ | ⟨-, rfl⟩⟩ | ⟨-, hp', -⟩ | ⟨-, hp', -⟩ | ⟨-, hp', -⟩ := step_next h
  · rw [hr] at hr'; cases hr'
  · exact ⟨c, (nextCmd_eq_some hn).1⟩
  · exact ⟨c, (nextCmd_eq_some hn).1⟩
  all_goals cases hp.symm.trans hp'

/-- Settles O12, by whether the block is in IDLE. -/
theorem offeredCommandIsHeld : Obligations.OfferedCommandIsHeld := fun _ _ h hr =>
  ⟨step_keeps_cmds h hr, step_takes_command h hr⟩

/-! ## The steps to a response (R169) -/

/-- The block reaches RESP after at least one and at most `k` steps. -/
def State.RespondsWithin (s : State) (k : Nat) : Prop :=
  ∃ n t, 1 ≤ n ∧ n ≤ k ∧ runFor n s = .next t ∧ t.blk.phase = .resp

theorem respondsWithin_of_step {s t : State} {k : Nat} (h : step s = .next t) (ht : t.blk.phase = .resp)
    (hk : 1 ≤ k) : s.RespondsWithin k :=
  ⟨1, t, le_rfl, hk, runFor_one h, ht⟩

/-- A step before a bounded run is a run with a bound one larger. -/
theorem respondsWithin_succ {s t : State} {k : Nat} (h : step s = .next t) (ht : t.RespondsWithin k) :
    s.RespondsWithin (k + 1) := by
  obtain ⟨n, u, -, hn, hrun, hu⟩ := ht
  exact ⟨n + 1, u, by omega, by omega, (runFor_succ n h).trans hrun, hu⟩

/-- A stream whose constant is an answer always answers. -/
theorem exists_answer {α : Type} (l : List α) {t : Option α} (ht : t.isSome = true) :
    ∃ a, l.head?.or t = some a :=
  Option.isSome_iff_exists.1 (by rw [Option.isSome_or, ht, Bool.or_true])

/-- An encode responds within the bytes of what remains of its value, whatever the sink answers: each `Write` step ends
it or leaves one byte less. -/
theorem respondsWithin_of_enc (k : Nat) : ∀ s : State, s.blk.phase = .enc → s.env.rst = [] →
    s.env.snkThen.isSome = true → varintLen s.blk.acc = k → s.RespondsWithin k := by
  induction k with
  | zero => exact fun s _ _ _ hlen => absurd hlen (varintLen_pos _).ne'
  | succ k ih =>
    intro s hp hr ht hlen
    obtain ⟨a, ha⟩ := exists_answer s.env.snk ht
    cases a with
    | ioFail => exact respondsWithin_of_step (step_of_enc_fail hp hr ha) rfl (by omega)
    | ok =>
      by_cases hv : s.blk.acc.toNat < 2 ^ 7
      · exact respondsWithin_of_step (step_of_enc_last hp hr ha hv) rfl (by omega)
      · have hmore : 2 ^ 7 ≤ s.blk.acc.toNat := not_lt.1 hv
        have hrest : varintLen (restOf s.blk.acc) = k := by rw [varintLen_of_ge hmore] at hlen; omega
        exact respondsWithin_succ (step_of_enc_more hp hr ha hmore) (ih _ hp hr ht hrest)

/-- A decode that may read `k` more bytes responds within `k` steps, whatever the source answers: each `Read` step ends
it or leaves one permitted byte less. -/
theorem respondsWithin_of_dec (k : Nat) : ∀ s : State, s.blk.phase = .dec → s.env.rst = [] →
    s.env.srcThen.isSome = true → s.blk.cnt.toNat < maxBytes (varintWidth s.blk.op) →
    maxBytes (varintWidth s.blk.op) = s.blk.cnt.toNat + k → s.RespondsWithin k := by
  induction k with
  | zero => exact fun s _ _ _ hlt hmax => absurd hmax hlt.ne'
  | succ k ih =>
    intro s hp hr ht hlt hmax
    have hsucc : (s.blk.cnt + 1#4).toNat = s.blk.cnt.toNat + 1 := cnt_succ_toNat (by have := cnt_lt_ten hlt; omega)
    obtain ⟨a, ha⟩ := exists_answer s.env.src ht
    cases a with
    | endInput | ioFail =>
      exact respondsWithin_of_step ((step_of_dec hp hr ha).trans (readStep_of_error hp rfl)) rfl (by omega)
    | byte x =>
      cases hc : contFlag x with
      | false => exact respondsWithin_of_step (step_of_dec_last hp hr ha hc) rfl (by omega)
      | true =>
        by_cases hm : (s.blk.cnt + 1#4).toNat = maxBytes (varintWidth s.blk.op)
        · exact respondsWithin_of_step (step_of_dec_overflow hp hr ha hc hm) rfl (by omega)
        · refine respondsWithin_succ (step_of_dec_more hp hr ha hc hm) (ih _ hp hr ht ?_ ?_)
          · rw [inDec_cnt, inDec_op]; omega
          · rw [inDec_cnt, inDec_op]; omega

section Offered

variable {s : State} {c : Command} {rest : List Command} {i : Instr} {code : BitVec 4}

/-- A command whose `Accept` step enters RESP, a zig-zag operation or an illegal one, has responded after that step. -/
theorem respondsWithin_one (h : s.Offers c rest) (ht : (commandEffect c s.blk).phase = .resp) :
    s.RespondsWithin 1 := by
  obtain ⟨hp, hr, hc⟩ := h
  have hlow : s.env.rstHigh = false := by rw [Env.rstHigh, hr]; rfl
  exact respondsWithin_of_step (step_commandEffect hp hlow hc) ht le_rfl

/-- A zig-zag operation responds in its `Accept` step (R92). -/
theorem respondsWithin_of_zigzag {r : Word} (h : s.Offers c rest) (hd : decode c = .ok i)
    (hi : acceptEffect i = zigzagDone code r) : s.RespondsWithin 1 :=
  respondsWithin_one h (by rw [commandEffect_of_ok hd, hi, zigzagDone_phase])

/-- An offered encode of `v` responds within its `Accept` step and `len(v)` `Write` steps. -/
theorem respondsWithin_of_startEncode {v : Word} (h : s.Offers c rest) (ht : s.env.snkThen.isSome = true)
    (hd : decode c = .ok i) (hi : acceptEffect i = startEncode code v) : s.RespondsWithin (1 + varintLen v) := by
  have hstep := step_of_offers_ok h hd
  rw [hi] at hstep
  obtain ⟨-, hr, -⟩ := h
  rw [Nat.add_comm]
  exact respondsWithin_succ hstep (respondsWithin_of_enc _ _ rfl hr ht rfl)

/-- An offered decode responds within its `Accept` step and MAX_BYTES `Read` steps. -/
theorem respondsWithin_of_startDecode (h : s.Offers c rest) (ht : s.env.srcThen.isSome = true)
    (hd : decode c = .ok i) (hi : acceptEffect i = startDecode code) :
    s.RespondsWithin (1 + maxBytes (varintWidth code)) := by
  have hstep := step_of_offers_ok h hd
  rw [hi] at hstep
  obtain ⟨-, hr, -⟩ := h
  have hpos : 0 < maxBytes (varintWidth code) := by
    obtain hw | hw := varintWidth_eq_or code <;> rw [hw] <;> decide
  rw [Nat.add_comm]
  exact respondsWithin_succ hstep (respondsWithin_of_dec _ _ rfl hr ht hpos (Nat.zero_add _).symm)

end Offered

/-- Settles O48: an illegal command and a zig-zag operation respond at once, an encode within the bytes of its value, and
a decode within its permitted bytes. -/
theorem operationEndsWithinBound : Obligations.OperationEndsWithinBound := by
  intro s c rest h hsrc hsnk
  change s.RespondsWithin (stepBound c)
  unfold stepBound
  cases hd : decode c with
  | error e => exact respondsWithin_one h (by rw [commandEffect_of_reserved (decode_eq_error hd), raise_phase])
  | ok i =>
    cases i with
    | zzenc8 a | zzenc16 a | zzenc32 a | zzenc64 a | zzdec8 a | zzdec16 a | zzdec32 a | zzdec64 a =>
      exact respondsWithin_of_zigzag h hd rfl
    | vencu32 a | vencs32 a => exact respondsWithin_of_startEncode h hsnk hd rfl
    | vencu64 a => exact respondsWithin_of_startEncode h hsnk hd (acceptEffect_vencu64 a)
    | vencs64 a => exact respondsWithin_of_startEncode h hsnk hd (acceptEffect_vencs64 a)
    | vdecu32 | vdecu64 | vdecs32 | vdecs64 => exact respondsWithin_of_startDecode h hsrc hd rfl

end Sys2Proof.Machine
end
